-- ==== Sys2Proof/Word.lean ====
section
/-! DEFINITION. The word types of DFPC. Every value is an unsigned integer of a stated width (00_scope.md R9); bit 0 is the
least significant bit. One-bit elements (CS_N, TC, OVF_PEND, EDGE_PEND, LINE) are Bool: true is 1, false is 0. -/

namespace Sys2Proof

/-- 8 bits: a frame's address byte (ADDR_W), a frame's data byte (DATA_W), one display register (R7, R34). -/
abbrev Byte := BitVec 8

/-- 16 bits: TMR, OVC and HPC (TMR_W, OVC_W, HPC_W of R7). -/
abbrev Half := BitVec 16

/-- 32 bits: CUR and HPS (CUR_W, HPS_W of R7). -/
abbrev Long := BitVec 32

/-- The 20-bit operation word OP20 (30_encoding.md R71). -/
abbrev OpWord := BitVec 20

/-- The 16-bit frame word FRAME16 (30_encoding.md R70). -/
abbrev FrameWord := BitVec 16

end Sys2Proof
end

