-- ==== Sys2Proof/Config.lean ====
section
/-! DEFINITION. What is fixed when the block is built (00_scope.md R7, R38), the parameters the spec leaves OPEN, and the
free values. An opaque constant has no body: nothing can prove a value of it. -/

namespace Sys2Proof

/-- The order in which the bits of a byte go on the wire (R51). -/
inductive BitOrder where
  | msbFirst
  | lsbFirst
deriving DecidableEq, Repr

namespace Config

/-- TMR_W (R7): the timer width; the type `Half` carries it. -/
def tmrWidth : Nat := 16

/-- TIMER_PERIOD (R7): ticks per timer wrap. -/
def timerPeriod : Nat := 65536

/-- DREG_N (R7): the number of receiver register addresses, 2^ADDR_W. -/
def dregCount : Nat := 256

/-- OVF_LINE_GATE (R7, R160, C5): a timer wrap sets OVF_PEND only while LINE = 1. The spec's default; the ungated reading is
`Machine.tickWith false`. -/
def ovfLineGate : Bool := true

/-- SER_BIT_ORDER (R7, R51): only the bit-level view of R106 reads it. -/
def serBitOrder : BitOrder := .msbFirst

/-- GAP_DELAY (R7, R103), OPEN: the delay between the two bytes of a frame. No rule reads it. -/
opaque gapDelay : Nat

/-- F_TICK (R7, R173), OPEN: the timer's tick rate in Hz. No rule reads it. -/
opaque tickRateHz : Nat

/-- What DREG[a] holds at power-up (R34, R40, I3: each of the 256 bytes is drawn freely). A free value. -/
opaque freeDreg : Byte → Byte

/-- LINE0 (R29, R40, R230): the level of the monitored input at the n-th RESET for which the environment supplied no draw in
`State.line0In`. A free value. -/
opaque freeLine0 : Nat → Bool

/-- The scheduler's free choice (R214) at the n-th step for which `State.schedule` names no turn: a word of some agent, or
(none) HOST presenting a held request again. A free value. -/
opaque freePick : Nat → Option OpWord

/-- Host constant PULSE_TARGET (R7, R175): the block compares against no target. -/
def hostPulseTarget : Nat := 512

/-- Host constant SAMPLE_TARGET (R7): voltage path, out of scope. -/
def hostSampleTarget : Nat := 1024

/-- Host constant F_CLK in Hz (R7, R173). -/
def hostClockHz : Nat := 11059200

/-- Host constant VREF_MV (R7): voltage path, out of scope. -/
def hostVrefMv : Nat := 2500

/-- Host constant DIGITS in frequency mode (R7, R234). -/
def hostDigitsFrequency : Nat := 6

/-- Host constant DIGITS in voltage mode (R7, R234). -/
def hostDigitsVoltage : Nat := 8

end Config
end Sys2Proof
end

