-- ==== Sys2Proof/Syntax.lean ====
section
/-! DEFINITION. The instructions of DFPC: one constructor per row of the opcode table. The first ten are the operations of the
block's agents (OP20, 30_encoding.md R72); the other thirteen are the frame commands the display receiver executes (FRAME16,
R75). Operands are typed by their widths (R73, R74), so every term is well formed. -/

namespace Sys2Proof

/-- One constructor per row of the opcode table. -/
inductive Instr where
  /-- SEND A, D (R100): HOST starts one frame. -/
  | send (a d : Byte)
  /-- RD_HPC (R167): HOST reads the pulse counter. -/
  | rdHpc
  /-- RD_CUR (R168): HOST reads the edge-snapshot latch. -/
  | rdCur
  /-- TAKE (R166): HOST takes and clears (HPS, HPC). -/
  | take
  /-- TICK (R160): the timer advances. -/
  | tick
  /-- LINE v (R161): the monitored input takes level v. -/
  | line (v : Bool)
  /-- OVF_SVC (R162): one pending wrap is counted. -/
  | ovfSvc
  /-- EDGE_SVC (R163): one half-period is latched and folded in. -/
  | edgeSvc
  /-- FR_STEP (R101): the frame in progress advances one phase. -/
  | frStep
  /-- RESET (R230). -/
  | reset
  /-- DIGIT1 (R131). -/
  | digit1 (d : Byte)
  /-- DIGIT2 (R132). -/
  | digit2 (d : Byte)
  /-- DIGIT3 (R133). -/
  | digit3 (d : Byte)
  /-- DIGIT4 (R134). -/
  | digit4 (d : Byte)
  /-- DIGIT5 (R135). -/
  | digit5 (d : Byte)
  /-- DIGIT6 (R136). -/
  | digit6 (d : Byte)
  /-- DIGIT7 (R137). -/
  | digit7 (d : Byte)
  /-- DIGIT8 (R138). -/
  | digit8 (d : Byte)
  /-- DECODE_MODE (R139). -/
  | decodeMode (d : Byte)
  /-- INTENSITY (R140). -/
  | intensity (d : Byte)
  /-- SCAN_LIMIT (R141). -/
  | scanLimit (d : Byte)
  /-- SHUTDOWN (R142). -/
  | shutdown (d : Byte)
  /-- DISPLAY_TEST (R143). -/
  | displayTest (d : Byte)
deriving DecidableEq, Repr

/-- The fields of an OP20 word before any check: OP = W[19:16], A = W[15:8], D = W[7:0] (R71). -/
structure OpFields where
  op : BitVec 4
  a : Byte
  d : Byte
deriving DecidableEq, Repr

/-- The bits of one instruction, in the format its row of the opcode table names. -/
inductive Code where
  | op20 (w : OpWord)
  | frame16 (f : FrameWord)
deriving DecidableEq, Repr

/-- One line of a trace (R82): an operation, or one of the pseudo-operations FRAME, TICKS, SHOW, INIT (R83 to R86). Operands are
the numbers as written; `Line.check` holds them against their ranges. -/
inductive Line where
  | send (a d : Nat)
  | rdHpc
  | rdCur
  | take
  | tick
  | line (v : Nat)
  | ovfSvc
  | edgeSvc
  | frStep
  | reset
  | frame (a d : Nat)
  | ticks (n : Nat)
  | showValue (v n : Nat)
  | init (n : Nat)
deriving DecidableEq, Repr

end Sys2Proof
end

