-- ==== Sys2Proof/WellFormed.lean ====
section
/-! DEFINITION. What a frame address and a trace line must satisfy to spell something. A term of Instr needs no check: its operands
are typed by their widths (R73, R74). The checks are on what is not typed so: the address byte of a frame (R77) and the numbers of a
trace line (R82 to R86). The check of an OP20 word's raw fields (R72, R78) is the decoder's own and stands in Decode.lean; the
reasons it gives are here. -/

namespace Sys2Proof

/-- Why an OP20 word spells no operation (R78). -/
inductive OpReason where
  /-- OP is 0x0, 0x5, 0x6, 0x7, 0xD or 0xE. -/
  | reservedOp
  /-- A field that R72 marks "must be 0" is not zero. -/
  | nonzeroReservedField
deriving DecidableEq, Repr

/-- R77: the addresses to which the document gives no meaning: 0x00, 0x0D, 0x0E and 0x10 to 0xFF. -/
def addrReserved (a : Byte) : Bool :=
  a == 0x00 || a == 0x0D || a == 0x0E || decide (0x10 ≤ a.toNat)

/-- R82 to R86: the operand ranges of a trace line. -/
def Line.check : Line → Bool
  | .send a d => decide (a ≤ 255) && decide (d ≤ 255)
  | .frame a d => decide (a ≤ 255) && decide (d ≤ 255)
  | .line v => decide (v ≤ 1)
  | .showValue _ n => decide (1 ≤ n) && decide (n ≤ 8)
  | .init n => decide (1 ≤ n) && decide (n ≤ 8)
  | .ticks _ => true
  | .rdHpc => true
  | .rdCur => true
  | .take => true
  | .tick => true
  | .ovfSvc => true
  | .edgeSvc => true
  | .frStep => true
  | .reset => true

end Sys2Proof
end

