-- ==== Sys2Proof/Decode.lean ====
section
/-! DEFINITION. Decoding, total on every word, and encoding, both written from 30_encoding.md R70 to R80. -/

namespace Sys2Proof

/-- The fields of an OP20 word (R71). -/
def fieldsOf (w : OpWord) : OpFields :=
  { op := w.extractLsb' 16 4, a := w.extractLsb' 8 8, d := w.extractLsb' 0 8 }

/-- The OP20 word with these fields (R71): OP : A : D. -/
def wordOf (f : OpFields) : OpWord := f.op ++ f.a ++ f.d

/-- R72, R78: the reserved operation codes. -/
def OpFields.opReserved (f : OpFields) : Bool :=
  f.op == 0x0 || f.op == 0x5 || f.op == 0x6 || f.op == 0x7 || f.op == 0xD || f.op == 0xE

/-- R72, R73: SEND uses all of A and D; LINE uses D[0] only; every other operation uses neither field. True when the fields the
operation does not use are zero. -/
def OpFields.unusedZero (f : OpFields) : Bool :=
  if f.op == 0x1 then true
  else if f.op == 0x9 then f.a == 0 && f.d.extractLsb' 1 7 == 0
  else f.a == 0 && f.d == 0

/-- R78: none when the fields spell an operation, else the reason of the refusal; a reserved OP is named first. -/
def OpFields.check (f : OpFields) : Option OpReason :=
  if f.opReserved then some .reservedOp
  else if f.unusedZero then none
  else some .nonzeroReservedField

/-- LINE's level operand: zext_1(D[0]), which is D[0] itself (R74). -/
def levelOf (d : Byte) : Bool := d.getLsbD 0

/-- The D field that spells a level (R72). -/
def levelByte (v : Bool) : Byte := if v then 1 else 0

/-- R72: the operation an OP20 word spells, or the reason it spells none (R78). -/
def decodeOp (w : OpWord) : Except OpReason Instr :=
  let f := fieldsOf w
  match f.check with
  | some r => .error r
  | none =>
    if f.op = 0x1 then .ok (.send f.a f.d)
    else if f.op = 0x2 then .ok .rdHpc
    else if f.op = 0x3 then .ok .rdCur
    else if f.op = 0x4 then .ok .take
    else if f.op = 0x8 then .ok .tick
    else if f.op = 0x9 then .ok (.line (levelOf f.d))
    else if f.op = 0xA then .ok .ovfSvc
    else if f.op = 0xB then .ok .edgeSvc
    else if f.op = 0xC then .ok .frStep
    else if f.op = 0xF then .ok .reset
    else .error .reservedOp

/-- The address byte of a frame word, F[15:8] (R70): the byte sent first. -/
def frameAddr (f : FrameWord) : Byte := f.extractLsb' 8 8

/-- The data byte of a frame word, F[7:0] (R70): the byte sent second. -/
def frameData (f : FrameWord) : Byte := f.extractLsb' 0 8

/-- The frame word with these two bytes (R70): A : D. -/
def frameOf (a d : Byte) : FrameWord := a ++ d

/-- R75: the frame command an address byte selects; none for a reserved address (R77). -/
def commandOf (a d : Byte) : Option Instr :=
  if a = 0x01 then some (.digit1 d)
  else if a = 0x02 then some (.digit2 d)
  else if a = 0x03 then some (.digit3 d)
  else if a = 0x04 then some (.digit4 d)
  else if a = 0x05 then some (.digit5 d)
  else if a = 0x06 then some (.digit6 d)
  else if a = 0x07 then some (.digit7 d)
  else if a = 0x08 then some (.digit8 d)
  else if a = 0x09 then some (.decodeMode d)
  else if a = 0x0A then some (.intensity d)
  else if a = 0x0B then some (.scanLimit d)
  else if a = 0x0C then some (.shutdown d)
  else if a = 0x0F then some (.displayTest d)
  else none

/-- R75: the frame command a frame word spells; none where its address is reserved (such a frame is still sent and stored, R77,
R144, but it is no row of the table). -/
def decodeFrame (f : FrameWord) : Option Instr := commandOf (frameAddr f) (frameData f)

/-- Decoding in either format. -/
def decode : Code → Option Instr
  | .op20 w => (decodeOp w).toOption
  | .frame16 f => decodeFrame f

/-- The code that spells an instruction (R72, R73, R75). -/
def encode : Instr → Code
  | .send a d => .op20 (wordOf ⟨0x1, a, d⟩)
  | .rdHpc => .op20 (wordOf ⟨0x2, 0, 0⟩)
  | .rdCur => .op20 (wordOf ⟨0x3, 0, 0⟩)
  | .take => .op20 (wordOf ⟨0x4, 0, 0⟩)
  | .tick => .op20 (wordOf ⟨0x8, 0, 0⟩)
  | .line v => .op20 (wordOf ⟨0x9, 0, levelByte v⟩)
  | .ovfSvc => .op20 (wordOf ⟨0xA, 0, 0⟩)
  | .edgeSvc => .op20 (wordOf ⟨0xB, 0, 0⟩)
  | .frStep => .op20 (wordOf ⟨0xC, 0, 0⟩)
  | .reset => .op20 (wordOf ⟨0xF, 0, 0⟩)
  | .digit1 d => .frame16 (frameOf 0x01 d)
  | .digit2 d => .frame16 (frameOf 0x02 d)
  | .digit3 d => .frame16 (frameOf 0x03 d)
  | .digit4 d => .frame16 (frameOf 0x04 d)
  | .digit5 d => .frame16 (frameOf 0x05 d)
  | .digit6 d => .frame16 (frameOf 0x06 d)
  | .digit7 d => .frame16 (frameOf 0x07 d)
  | .digit8 d => .frame16 (frameOf 0x08 d)
  | .decodeMode d => .frame16 (frameOf 0x09 d)
  | .intensity d => .frame16 (frameOf 0x0A d)
  | .scanLimit d => .frame16 (frameOf 0x0B d)
  | .shutdown d => .frame16 (frameOf 0x0C d)
  | .displayTest d => .frame16 (frameOf 0x0F d)

/-- The words a list of block operations is written as (R82); a frame command has no OP20 word and adds none. -/
def opWords : List Instr → List OpWord
  | [] => []
  | i :: is =>
    match encode i with
    | .op20 w => w :: opWords is
    | .frame16 _ => opWords is

/-- The match and mask of an instruction's row, as opcode_table.json gives them; the row's width in bits comes first. -/
def rowOf : Instr → Nat × Nat × Nat
  | .send _ _ => (20, 0x10000, 0xF0000)
  | .rdHpc => (20, 0x20000, 0xFFFFF)
  | .rdCur => (20, 0x30000, 0xFFFFF)
  | .take => (20, 0x40000, 0xFFFFF)
  | .tick => (20, 0x80000, 0xFFFFF)
  | .line _ => (20, 0x90000, 0xFFFFE)
  | .ovfSvc => (20, 0xA0000, 0xFFFFF)
  | .edgeSvc => (20, 0xB0000, 0xFFFFF)
  | .frStep => (20, 0xC0000, 0xFFFFF)
  | .reset => (20, 0xF0000, 0xFFFFF)
  | .digit1 _ => (16, 0x0100, 0xFF00)
  | .digit2 _ => (16, 0x0200, 0xFF00)
  | .digit3 _ => (16, 0x0300, 0xFF00)
  | .digit4 _ => (16, 0x0400, 0xFF00)
  | .digit5 _ => (16, 0x0500, 0xFF00)
  | .digit6 _ => (16, 0x0600, 0xFF00)
  | .digit7 _ => (16, 0x0700, 0xFF00)
  | .digit8 _ => (16, 0x0800, 0xFF00)
  | .decodeMode _ => (16, 0x0900, 0xFF00)
  | .intensity _ => (16, 0x0A00, 0xFF00)
  | .scanLimit _ => (16, 0x0B00, 0xFF00)
  | .shutdown _ => (16, 0x0C00, 0xFF00)
  | .displayTest _ => (16, 0x0F00, 0xFF00)

/-- Whether a code lies in a row: the row's width, and the bits under its mask equal to its match. -/
def Code.inRow (c : Code) (r : Nat × Nat × Nat) : Bool :=
  match c with
  | .op20 w => r.1 == 20 && (w &&& BitVec.ofNat 20 r.2.2) == BitVec.ofNat 20 r.2.1
  | .frame16 f => r.1 == 16 && (f &&& BitVec.ofNat 16 r.2.2) == BitVec.ofNat 16 r.2.1

/-- The code a number stands for: a row of at most 16 bits is a FRAME16 word, a wider row an OP20 word (R80: there are no other
lengths). None where the number has bits above its format. -/
def codeOfTableWord (nbits w : Nat) : Option Code :=
  if nbits ≤ 16 then
    if w < 2 ^ 16 then some (.frame16 (BitVec.ofNat 16 w)) else none
  else
    if w < 2 ^ 20 then some (.op20 (BitVec.ofNat 20 w)) else none

/-- The instruction the decoder reads from a word numbered as the opcode table numbers it. -/
def decodeTableWord (nbits w : Nat) : Option Instr :=
  match codeOfTableWord nbits w with
  | some c => decode c
  | none => none

end Sys2Proof
end

