-- ==== Sys2Proof/Machine/State.lean ====
section
/-! DEFINITION. The state of the model: every element of 10_state.md R20 to R35, and the model's own plain data for what the
spec leaves to the agents outside the block (HOST's held requests, the scheduler's choices, the draws of LINE0). -/

namespace Sys2Proof.Machine

/-- FR_PHASE (R20): the framer's sequencing state. The codes 5 to 7 are never reached and have no constructor (log entry 6). -/
inductive Phase where
  /-- No frame in progress; code 0. -/
  | idle
  /-- The address byte is being shifted out; code 1. -/
  | addr
  /-- The address byte is complete, the inter-byte delay is running; code 2. -/
  | gap
  /-- The data byte is being shifted out; code 3. -/
  | data
  /-- END: the data byte is complete, chip-select still asserted; code 4. -/
  | endPhase
deriving DecidableEq, Repr

/-- One event of the serial link's transcript (R24). -/
inductive WireEvent where
  /-- CS_FALL -/
  | csFall
  /-- BYTE(b) -/
  | byte (b : Byte)
  /-- CS_RISE -/
  | csRise
deriving DecidableEq, Repr

/-- One response to HOST (R35). -/
inductive Response where
  /-- RD_HPC's 16-bit value. -/
  | hpc (v : Half)
  /-- RD_CUR's 32-bit value. -/
  | cur (v : Long)
  /-- TAKE's pair (HPS, HPC). -/
  | snapshot (sum : Long) (count : Half)
deriving DecidableEq, Repr

/-- One choice of the scheduler (R214): who takes the next step. -/
inductive Turn where
  /-- The agent that owns the operation word takes the step the word spells (R79). -/
  | op (w : OpWord)
  /-- HOST presents its oldest held SEND again (R11 hold, R110 "provided HOST keeps requesting it"). -/
  | host
deriving DecidableEq, Repr

/-- The display register space (R57): the bytes frames have written since power-up, as address and byte pairs, addresses strictly
rising. An unlisted register still holds its power-up byte, the free value `Config.freeDreg` (R34, I3, log entry 7). -/
abbrev Memory := List Host.Cell

/-- The machine. -/
structure State where
  /-- FR_PHASE (R20). -/
  frPhase : Phase
  /-- CS_N (R21), active low: false is 0, asserted. -/
  csN : Bool
  /-- TC (R23), the transfer-complete flag. -/
  tc : Bool
  /-- FR_ADDR (R22). -/
  frAddr : Byte
  /-- FR_DATA (R22). -/
  frData : Byte
  /-- WIRE (R24), oldest event first. -/
  wire : List WireEvent
  /-- TMR (R26), TMRH : TMRL. -/
  tmr : Half
  /-- OVF_PEND (R27). -/
  ovfPend : Bool
  /-- OVC (R28). -/
  ovc : Half
  /-- LINE (R29), the last sampled level. -/
  line : Bool
  /-- EDGE_PEND (R30). -/
  edgePend : Bool
  /-- CUR (R31). -/
  cur : Long
  /-- HPS (R32). -/
  hps : Long
  /-- HPC (R33). -/
  hpc : Half
  /-- DREG (R34), the display receiver's register file. -/
  dreg : Memory
  /-- RESP (R35), oldest response first. -/
  resp : List Response
  /-- HOST's SEND requests that hold (R11, R100), oldest first: each an address byte and a data byte. -/
  held : List (Byte × Byte)
  /-- The scheduler's coming choices (R214), next first: the model's own field. -/
  schedule : List Turn
  /-- How many free choices of the scheduler were used: the model's own counter for `Config.freePick`. -/
  picks : Nat
  /-- The levels of the input at the coming RESETs, supplied as inputs (R40 "an input of the reset"): the model's own field. -/
  line0In : List Bool
  /-- How many draws of LINE0 were used: the model's own counter for `Config.freeLine0`. -/
  draws : Nat
deriving DecidableEq, Repr

/-- DFPC raises no exception, trap or fault (R200), so there is no reason to fault: the type has no constructor. Safe. -/
inductive Fault where
deriving DecidableEq, Repr

/-- Why a step has no meaning. -/
inductive Refusal where
  /-- An instruction without a meaning yet; raised by exec's arm for it. Safe. No arm of this model raises it. -/
  | notModelled (mnemonic : String)
  /-- refuse(reserved_op) of R78: raised by step for a word whose OP is reserved. Safe: a run with such a word proves nothing. -/
  | reservedOp
  /-- refuse(nonzero_reserved_field) of R78: raised by step for a word with a non-zero must-be-zero field. Safe. -/
  | nonzeroReservedField
deriving DecidableEq, Repr

/-- Power-up with LINE0 = line0 (R40, R230): the Reset column, WIRE and RESP empty, every DREG byte a free value (I3:
none is listed as written). The model's own fields start empty (log entry 2). -/
def State.powerUp (line0 : Bool) : State :=
  { frPhase := .idle, csN := true, tc := false, frAddr := 0, frData := 0, wire := [],
    tmr := 0, ovfPend := false, ovc := 0, line := line0, edgePend := false, cur := 0, hps := 0, hpc := 0,
    dreg := [], resp := [], held := [], schedule := [], picks := 0, line0In := [], draws := 0 }

/-- The machine right after reset. The spec leaves LINE0 open; the model names 0 (log entry 1). -/
def State.reset : State := State.powerUp false

end Sys2Proof.Machine
end

