-- ==== Sys2Proof/Machine/Ops.lean ====
section
/-! DEFINITION. The named operations over the state: the display register space, the receiver's reaction, emit, return and hold
(00_scope.md R11). DFPC takes no exception (R200) and has no exception entry or return (R209, R210), so none stands here. -/

namespace Sys2Proof.Machine

/-- The byte frames have last written at a since power-up; none where the byte is still the unspecified one of power-up (R232). -/
def Memory.written : Memory → Nat → Option Byte
  | [], _ => none
  | (k, v) :: m, a => if k = a then some v else Memory.written m a

/-- MemRead(a, 1) of the display register space (R11), the value of DREG[a]: the byte written last, or the byte drawn at power-up
where none was written (R34, I3). -/
def Memory.read (m : Memory) (a : Byte) : Byte := (m.written a.toNat).getD (Config.freeDreg a)

/-- MemWrite(a, 1, v) (R11), keeping the addresses rising. -/
def Memory.write : Memory → Nat → Byte → Memory
  | [], a, b => [(a, b)]
  | (k, v) :: m, a, b =>
    if a < k then (a, b) :: (k, v) :: m
    else if a = k then (a, b) :: m
    else (k, v) :: Memory.write m a b

/-- The addresses of a list of cells rise strictly from `lo` on and stay inside the display register space (R57). -/
def Memory.risingFrom : Nat → Memory → Bool
  | _, [] => true
  | lo, (k, _) :: m => decide (lo ≤ k) && decide (k < Config.dregCount) && Memory.risingFrom (k + 1) m

/-- The canonical form: addresses strictly rising and below 256. An entry says that its byte is written, so memories with the same
written bytes are equal data (`Memory.eq_of_written`, log entry 7). -/
def Memory.wf (m : Memory) : Bool := Memory.risingFrom 0 m

/-- The receiver's write MemWrite(a, 1, d), that is DREG[a] <- d (R130). -/
def frameWrite (a d : Byte) (s : State) : State := { s with dreg := s.dreg.write a.toNat d }

/-- The bytes of the BYTE events since the last CS_FALL, after `acc` (R130). -/
def rxFrom : List Byte → List WireEvent → List Byte
  | acc, [] => acc
  | _, .csFall :: es => rxFrom [] es
  | acc, .byte b :: es => rxFrom (acc ++ [b]) es
  | acc, .csRise :: es => rxFrom acc es

/-- RX of R130 for a whole transcript. -/
def rxBytes (w : List WireEvent) : List Byte := rxFrom [] w

/-- What the receiver makes of the bytes RX of a closed frame: MemWrite(RX[0], 1, RX[1]) when there are exactly two, and nothing
otherwise (R130). -/
def rxWrite (rx : List Byte) (m : Memory) : Memory :=
  match rx with
  | [a, d] => m.write a.toNat d
  | _ => m

/-- R130: the receiver's reaction to a CS_RISE, RX being the bytes since the last CS_FALL. -/
def receive (s : State) : State := { s with dreg := rxWrite (rxBytes s.wire) s.dreg }

/-- Appends one event to WIRE (R24). -/
def appendWire (e : WireEvent) (s : State) : State := { s with wire := s.wire ++ [e] }

/-- emit(e) (R11): the event is appended to WIRE, and at a CS_RISE the receiver reacts in the same step (R130). -/
def emit (e : WireEvent) (s : State) : State :=
  match e with
  | .csFall => appendWire .csFall s
  | .byte b => appendWire (.byte b) s
  | .csRise => receive (appendWire .csRise s)

/-- return (R11): the response is appended to RESP (R35). -/
def respond (r : Response) (s : State) : State := { s with resp := s.resp ++ [r] }

/-- hold for a SEND (R11, R100): the request stays with HOST; no element of the block changes. -/
def holdSend (a d : Byte) (s : State) : State := { s with held := s.held ++ [(a, d)] }

/-- FR_BUSY (R25): not stored. -/
def frBusy (s : State) : Bool := s.frPhase != .idle

/-- The draw LINE0 for the coming RESET (R40): the supplied input, or the free value where none was supplied. -/
def drawLine0 (s : State) : Bool :=
  match s.line0In with
  | l :: _ => l
  | [] => Config.freeLine0 s.draws

/-- One draw is used up. -/
def useDraw (s : State) : State := { s with line0In := s.line0In.tail, draws := s.draws + 1 }

end Sys2Proof.Machine
end

