-- ==== Sys2Proof/Machine/Operands.lean ====
section
/-! DEFINITION. The forms in which the operations read their values: the timer pair, the duration, the phase codes. The operand
fields of the words are in Decode.lean (R71, R74). -/

namespace Sys2Proof.Machine

/-- TMRH = TMR[15:8] (R26). -/
def tmrHigh (t : Half) : Byte := t.extractLsb' 8 8

/-- TMRL = TMR[7:0] (R26). -/
def tmrLow (t : Half) : Byte := t.extractLsb' 0 8

/-- TMRH:TMRL read as one value (R53). -/
def tmrPair (hi lo : Byte) : Half := hi ++ lo

/-- The timer's next value: 0xFFFF goes to 0x0000, no carry out of 16 bits (R160). -/
def nextTick (t : Half) : Half := if t = 0xFFFF then 0x0000 else t + 1

/-- The latched duration zext_32(t) + (zext_32(k) << 16) (R163). -/
def durationOf (t k : Half) : Long := t.zeroExtend 32 + (k.zeroExtend 32 <<< 16)

/-- The 3-bit code of FR_PHASE (R20). -/
def phaseCode : Phase → BitVec 3
  | .idle => 0
  | .addr => 1
  | .gap => 2
  | .data => 3
  | .endPhase => 4

/-- The phase FR_STEP leads to (R101). -/
def nextPhase : Phase → Phase
  | .idle => .idle
  | .addr => .gap
  | .gap => .data
  | .data => .endPhase
  | .endPhase => .idle

end Sys2Proof.Machine
end

