-- ==== Sys2Proof/Machine/Flags.lean ====
section
/-! DEFINITION. The three flags of DFPC (R37): TC, OVF_PEND and EDGE_PEND. Each is set and cleared only as its own rule says. -/

namespace Sys2Proof.Machine

/-- OVF_PEND after a TICK that finds the timer at t (R160): set by a wrap that meets the gate, and kept when already set (R170). -/
def ovfPendAfterTick (gate : Bool) (t : Half) (level pend : Bool) : Bool :=
  if t = 0xFFFF then (if !gate || level then true else pend) else pend

/-- EDGE_PEND after the input takes level v (R161): set by a change of level, in either direction (R174), and kept when already
set (R170). -/
def edgePendAfterLine (v level pend : Bool) : Bool := if v = level then pend else true

/-- TC after an FR_STEP that finds the phase at p (R23, R101): set as a byte completes, cleared as the data byte starts. -/
def tcAfterStep (p : Phase) (tc : Bool) : Bool :=
  match p with
  | .idle => tc
  | .addr => true
  | .gap => false
  | .data => true
  | .endPhase => tc

end Sys2Proof.Machine
end

