-- ==== Sys2Proof/Machine/Capture.lean ====
section
/-! DEFINITION. The period-capture operations (42_capture.md R160 to R168). -/

namespace Sys2Proof.Machine

/-- TICK under a value of the parameter OVF_LINE_GATE (R160). -/
def tickWith (gate : Bool) (s : State) : State :=
  { s with tmr := nextTick s.tmr, ovfPend := ovfPendAfterTick gate s.tmr s.line s.ovfPend }

/-- TICK (R160). -/
def execTick (s : State) : Host.Outcome State Fault Refusal := .next (tickWith Config.ovfLineGate s)

/-- LINE v (R161). With an unchanged level the step changes nothing (D30). -/
def sampleLine (v : Bool) (s : State) : State :=
  { s with line := v, edgePend := edgePendAfterLine v s.line s.edgePend }

/-- LINE v (R161). -/
def execLine (v : Bool) (s : State) : Host.Outcome State Fault Refusal := .next (sampleLine v s)

/-- OVF_SVC's effect on a pending wrap (R162). -/
def countWrap (s : State) : State := { s with ovfPend := false, ovc := s.ovc + 1 }

/-- OVF_SVC (R162): no step, so no change, while OVF_PEND = 0. -/
def execOvfSvc (s : State) : Host.Outcome State Fault Refusal := .next (if s.ovfPend then countWrap s else s)

/-- EDGE_SVC's effect on a pending edge (R163): HPS takes the CUR just computed; OVF_PEND is neither read nor written. -/
def latchEdge (s : State) : State :=
  { s with
    cur := durationOf s.tmr s.ovc, ovc := 0, tmr := 0, hpc := s.hpc + 1, hps := s.hps + durationOf s.tmr s.ovc,
    edgePend := false }

/-- EDGE_SVC (R163): no step, so no change, while EDGE_PEND = 0. -/
def execEdgeSvc (s : State) : Host.Outcome State Fault Refusal := .next (if s.edgePend then latchEdge s else s)

/-- TAKE (R166): the pair is returned as it was and both accumulators are cleared, in one step. -/
def execTake (s : State) : Host.Outcome State Fault Refusal :=
  .next (respond (.snapshot s.hps s.hpc) { s with hps := 0, hpc := 0 })

/-- RD_HPC (R167). -/
def execRdHpc (s : State) : Host.Outcome State Fault Refusal := .next (respond (.hpc s.hpc) s)

/-- RD_CUR (R168). -/
def execRdCur (s : State) : Host.Outcome State Fault Refusal := .next (respond (.cur s.cur) s)

end Sys2Proof.Machine
end

