-- ==== Sys2Proof/Machine/Display.lean ====
section
/-! DEFINITION. The frame commands (41_display_frames.md R131 to R143) as the display receiver executes them at the CS_RISE of
their frame, and the derived view DISPLAYED (R145). In a run the write happens inside the step that emits the CS_RISE, through
`receive` (R130); a frame command on its own is that write. -/

namespace Sys2Proof.Machine

/-- DIGIT1 (R131): DREG[1] <- D. -/
def execDigit1 (d : Byte) (s : State) : Host.Outcome State Fault Refusal := .next (frameWrite 1 d s)

/-- DIGIT2 (R132): DREG[2] <- D. -/
def execDigit2 (d : Byte) (s : State) : Host.Outcome State Fault Refusal := .next (frameWrite 2 d s)

/-- DIGIT3 (R133): DREG[3] <- D. -/
def execDigit3 (d : Byte) (s : State) : Host.Outcome State Fault Refusal := .next (frameWrite 3 d s)

/-- DIGIT4 (R134): DREG[4] <- D. -/
def execDigit4 (d : Byte) (s : State) : Host.Outcome State Fault Refusal := .next (frameWrite 4 d s)

/-- DIGIT5 (R135): DREG[5] <- D. -/
def execDigit5 (d : Byte) (s : State) : Host.Outcome State Fault Refusal := .next (frameWrite 5 d s)

/-- DIGIT6 (R136): DREG[6] <- D. -/
def execDigit6 (d : Byte) (s : State) : Host.Outcome State Fault Refusal := .next (frameWrite 6 d s)

/-- DIGIT7 (R137): DREG[7] <- D. -/
def execDigit7 (d : Byte) (s : State) : Host.Outcome State Fault Refusal := .next (frameWrite 7 d s)

/-- DIGIT8 (R138): DREG[8] <- D. -/
def execDigit8 (d : Byte) (s : State) : Host.Outcome State Fault Refusal := .next (frameWrite 8 d s)

/-- DECODE_MODE (R139): DREG[9] <- D. -/
def execDecodeMode (d : Byte) (s : State) : Host.Outcome State Fault Refusal := .next (frameWrite 9 d s)

/-- INTENSITY (R140): DREG[10] <- D. -/
def execIntensity (d : Byte) (s : State) : Host.Outcome State Fault Refusal := .next (frameWrite 10 d s)

/-- SCAN_LIMIT (R141): DREG[11] <- D. -/
def execScanLimit (d : Byte) (s : State) : Host.Outcome State Fault Refusal := .next (frameWrite 11 d s)

/-- SHUTDOWN (R142): DREG[12] <- D. -/
def execShutdown (d : Byte) (s : State) : Host.Outcome State Fault Refusal := .next (frameWrite 12 d s)

/-- DISPLAY_TEST (R143): DREG[15] <- D. -/
def execDisplayTest (d : Byte) (s : State) : Host.Outcome State Fault Refusal := .next (frameWrite 15 d s)

/-- The sum over k = 1..n of DREG[k] * 10^(k-1), defined when each of these bytes is written and in 0..9 (R145, R232). -/
def digitsValue (m : Memory) : Nat → Option Nat
  | 0 => some 0
  | n + 1 =>
    match digitsValue m n, m.written (n + 1) with
    | some v, some d => if d.toNat ≤ 9 then some (v + d.toNat * 10 ^ n) else none
    | _, _ => none

/-- The five control registers are written as INIT n leaves them (R86, R234): the four that R145 names, and the intensity, without
which I2 calls DISPLAYED(n) undefined. -/
def displayReady (m : Memory) (n : Nat) : Bool :=
  m.written 9 == some 255 && m.written 12 == some 1 && m.written 15 == some 0 && m.written 11 == some (BitVec.ofNat 8 (n - 1)) &&
    m.written 10 == some (BitVec.ofNat 8 n)

/-- A register address the document gives a meaning: 1 to 12 and 15 (R57). -/
def documented (k : Nat) : Bool := (decide (1 ≤ k) && decide (k ≤ 12)) || k == 15

/-- No frame has gone to a reserved address since power-up (R77): after one, what the display shows is unspecified (R144, I2). -/
def onlyDocumented (m : Memory) : Bool := m.all (fun c => documented c.1)

/-- DISPLAYED(N) (R145): none where it is undefined. R145 lists conditions without which it is not defined; I2 adds the intensity and
the reserved addresses, and R234 that INIT was sent (log entry 17). So it is undefined too where it needs a byte that no frame has
written (R232, VD14, log entry 7). -/
def displayed (m : Memory) (n : Nat) : Option Nat :=
  if 1 ≤ n ∧ n ≤ 8 then (if displayReady m n && onlyDocumented m then digitsValue m n else none) else none

end Sys2Proof.Machine
end

