-- ==== Sys2Proof/Machine/Framer.lean ====
section
/-! DEFINITION. The framer operations SEND and FR_STEP (40_framer.md R100, R101). -/

namespace Sys2Proof.Machine

/-- SEND accepted in IDLE (R100). -/
def startFrame (a d : Byte) (s : State) : State :=
  emit .csFall { s with frAddr := a, frData := d, csN := false, tc := false, frPhase := .addr }

/-- SEND A, D (R100): accepted in IDLE; held, with nothing in the block changed, while a frame is in progress. -/
def execSend (a d : Byte) (s : State) : Host.Outcome State Fault Refusal :=
  .next (if frBusy s then holdSend a d s else startFrame a d s)

/-- What one FR_STEP puts on the wire and does to chip-select (R101); the flag and the phase follow in `stepFrame`. -/
def frameEvent (s : State) : State :=
  match s.frPhase with
  | .idle => s
  | .addr => emit (.byte s.frAddr) s
  | .gap => s
  | .data => emit (.byte s.frData) s
  | .endPhase => emit .csRise { s with csN := true }

/-- FR_STEP's whole effect (R101). In IDLE there is no step: the state stays as it is. -/
def stepFrame (s : State) : State :=
  { frameEvent s with tc := tcAfterStep s.frPhase s.tc, frPhase := nextPhase s.frPhase }

/-- FR_STEP (R101). -/
def execFrStep (s : State) : Host.Outcome State Fault Refusal := .next (stepFrame s)

end Sys2Proof.Machine
end

