-- ==== Sys2Proof/Machine/Reset.lean ====
section
/-! DEFINITION. RESET (70_reset_and_hazards.md R230, R231). -/

namespace Sys2Proof.Machine

/-- R230, first line: a frame in progress is closed on the wire; the receiver reacts to the CS_RISE as to any other (R231). -/
def closeFrame (s : State) : State := if s.csN then s else emit .csRise s

/-- R230, the Reset column of R40 with the draw LINE0; WIRE, RESP, DREG and HOST's requests are kept. -/
def clearBlock (line0 : Bool) (s : State) : State :=
  { s with
    frPhase := .idle, csN := true, tc := false, frAddr := 0, frData := 0,
    tmr := 0, ovfPend := false, ovc := 0, line := line0, edgePend := false, cur := 0, hps := 0, hpc := 0 }

/-- RESET with a given draw LINE0 (R230). -/
def resetWith (line0 : Bool) (s : State) : State := clearBlock line0 (closeFrame s)

/-- RESET (R230): the draw is the supplied input, or a free value. -/
def execReset (s : State) : Host.Outcome State Fault Refusal := .next (useDraw (resetWith (drawLine0 s) s))

end Sys2Proof.Machine
end

