-- ==== Sys2Proof/Machine/Dispatch.lean ====
section
/-! DEFINITION. The dispatch of an instruction to its meaning: one arm per constructor. -/

namespace Sys2Proof.Machine

def exec (i : Instr) (s : State) : Host.Outcome State Fault Refusal :=
  match i with
  | .send a d => Sys2Proof.Machine.execSend a d s
  | .rdHpc => Sys2Proof.Machine.execRdHpc s
  | .rdCur => Sys2Proof.Machine.execRdCur s
  | .take => Sys2Proof.Machine.execTake s
  | .tick => Sys2Proof.Machine.execTick s
  | .line v => Sys2Proof.Machine.execLine v s
  | .ovfSvc => Sys2Proof.Machine.execOvfSvc s
  | .edgeSvc => Sys2Proof.Machine.execEdgeSvc s
  | .frStep => Sys2Proof.Machine.execFrStep s
  | .reset => Sys2Proof.Machine.execReset s
  | .digit1 d => Sys2Proof.Machine.execDigit1 d s
  | .digit2 d => Sys2Proof.Machine.execDigit2 d s
  | .digit3 d => Sys2Proof.Machine.execDigit3 d s
  | .digit4 d => Sys2Proof.Machine.execDigit4 d s
  | .digit5 d => Sys2Proof.Machine.execDigit5 d s
  | .digit6 d => Sys2Proof.Machine.execDigit6 d s
  | .digit7 d => Sys2Proof.Machine.execDigit7 d s
  | .digit8 d => Sys2Proof.Machine.execDigit8 d s
  | .decodeMode d => Sys2Proof.Machine.execDecodeMode d s
  | .intensity d => Sys2Proof.Machine.execIntensity d s
  | .scanLimit d => Sys2Proof.Machine.execScanLimit d s
  | .shutdown d => Sys2Proof.Machine.execShutdown d s
  | .displayTest d => Sys2Proof.Machine.execDisplayTest d s

end Sys2Proof.Machine
end

