-- ==== Sys2Proof/Machine/Agents.lean ====
section
/-! DEFINITION. The agents (00_scope.md R8), the agent of each operation (R72, R79) and when a step is enabled (60_exceptions.md
R214). -/

namespace Sys2Proof.Machine

/-- The agents of R8. -/
inductive Agent where
  /-- The control loop. -/
  | host
  /-- The timer clock. -/
  | tclk
  /-- The monitored input line. -/
  | lsrc
  /-- The overflow service unit. -/
  | ovu
  /-- The edge service unit. -/
  | edu
  /-- The framer sequencer. -/
  | frs
  /-- The reset source. -/
  | rst
  /-- The reference display receiver: it has no operation, it reacts to the wire. -/
  | disp
deriving DecidableEq, Repr

/-- The agent whose step an instruction is (R72); a frame command is executed by the receiver (R130). -/
def agentOf : Instr → Agent
  | .send _ _ => .host
  | .rdHpc => .host
  | .rdCur => .host
  | .take => .host
  | .tick => .tclk
  | .line _ => .lsrc
  | .ovfSvc => .ovu
  | .edgeSvc => .edu
  | .frStep => .frs
  | .reset => .rst
  | .digit1 _ => .disp
  | .digit2 _ => .disp
  | .digit3 _ => .disp
  | .digit4 _ => .disp
  | .digit5 _ => .disp
  | .digit6 _ => .disp
  | .digit7 _ => .disp
  | .digit8 _ => .disp
  | .decodeMode _ => .disp
  | .intensity _ => .disp
  | .scanLimit _ => .disp
  | .shutdown _ => .disp
  | .displayTest _ => .disp

/-- The unit whose state an operation reads and writes (R109): FR, PC, both (RESET), or the display receiver. -/
inductive OpUnit where
  | fr
  | pc
  | both
  | receiver
deriving DecidableEq, Repr

/-- The unit of each operation (R100 to R101, R160 to R168, R230, R131 to R143). -/
def unitOf : Instr → OpUnit
  | .send _ _ => .fr
  | .frStep => .fr
  | .rdHpc => .pc
  | .rdCur => .pc
  | .take => .pc
  | .tick => .pc
  | .line _ => .pc
  | .ovfSvc => .pc
  | .edgeSvc => .pc
  | .reset => .both
  | .digit1 _ => .receiver
  | .digit2 _ => .receiver
  | .digit3 _ => .receiver
  | .digit4 _ => .receiver
  | .digit5 _ => .receiver
  | .digit6 _ => .receiver
  | .digit7 _ => .receiver
  | .digit8 _ => .receiver
  | .decodeMode _ => .receiver
  | .intensity _ => .receiver
  | .scanLimit _ => .receiver
  | .shutdown _ => .receiver
  | .displayTest _ => .receiver

/-- R79: the operations HOST may issue. -/
def hostMayIssue (i : Instr) : Bool := agentOf i == .host

/-- R214: whether an operation is an enabled step. HOST's reads are enabled whenever HOST asks for them; SEND only in IDLE. A
frame command is never scheduled: the receiver has no operation (R8), it reacts inside the step that emits the CS_RISE. -/
def enabled (i : Instr) (s : State) : Bool :=
  match i with
  | .send _ _ => !frBusy s
  | .rdHpc => true
  | .rdCur => true
  | .take => true
  | .tick => true
  | .line _ => true
  | .ovfSvc => s.ovfPend
  | .edgeSvc => s.edgePend
  | .frStep => frBusy s
  | .reset => true
  | .digit1 _ => false
  | .digit2 _ => false
  | .digit3 _ => false
  | .digit4 _ => false
  | .digit5 _ => false
  | .digit6 _ => false
  | .digit7 _ => false
  | .digit8 _ => false
  | .decodeMode _ => false
  | .intensity _ => false
  | .scanLimit _ => false
  | .shutdown _ => false
  | .displayTest _ => false

end Sys2Proof.Machine
end

