-- ==== Sys2Proof/Machine/Schedule.lean ====
section
/-! DEFINITION. The scheduler's turns (60_exceptions.md R214): which agent takes the next step, and how a word becomes one. -/

namespace Sys2Proof.Machine

/-- R78: the refusal of a word that spells no operation. -/
def refusalOf : OpReason → Refusal
  | .reservedOp => .reservedOp
  | .nonzeroReservedField => .nonzeroReservedField

/-- HOST presents its oldest held SEND again (R11, R110): accepted in IDLE, and still held otherwise. With no held request HOST
has no step, and nothing changes. -/
def retryHeld (s : State) : Host.Outcome State Fault Refusal :=
  match s.held with
  | [] => .next s
  | (a, d) :: rest => if frBusy s then .next s else exec (.send a d) { s with held := rest }

/-- One turn. A word that spells no operation is refused (R78). -/
def takeTurn (t : Turn) (s : State) : Host.Outcome State Fault Refusal :=
  match t with
  | .op w =>
    match decodeOp w with
    | .ok i => exec i s
    | .error r => .refused (refusalOf r)
  | .host => retryHeld s

/-- The turn a free choice stands for (R214): only a word that spells an operation is a step of an agent; any other choice is
HOST's turn. -/
def freeTurn (pick : Option OpWord) : Turn :=
  match pick with
  | some w =>
    match decodeOp w with
    | .ok _ => .op w
    | .error _ => .host
  | none => .host

/-- The next turn, and the state once that choice is used up: the schedule's first, or the free choice where the schedule names
none. -/
def nextTurn (s : State) : Turn × State :=
  match s.schedule with
  | t :: rest => (t, { s with schedule := rest })
  | [] => (freeTurn (Config.freePick s.picks), { s with picks := s.picks + 1 })

/-- FR_STEP's word (R72). -/
def frStepWord : OpWord := 0xC0000

/-- An OP20 word becomes the scheduler's next choice. -/
def loadOp (w : OpWord) (s : State) : State := { s with schedule := .op w :: s.schedule }

/-- A frame word becomes the frame in progress, in the state SEND A, D and three FR_STEP leave it in (R100, R101), and FR_STEP
becomes the scheduler's next choice: that step emits the CS_RISE at which the receiver executes the frame (R130). -/
def loadFrame (f : FrameWord) (s : State) : State :=
  { s with
    frPhase := .endPhase, csN := false, tc := true, frAddr := frameAddr f, frData := frameData f,
    wire := s.wire ++ [.csFall, .byte (frameAddr f), .byte (frameData f)],
    schedule := .op frStepWord :: s.schedule }

/-- The instruction whose bits are w, placed where the next step takes its instruction from. -/
def loadTableWord (nbits w : Nat) (s : State) : State :=
  if nbits ≤ 16 then loadFrame (BitVec.ofNat 16 w) s else loadOp (BitVec.ofNat 20 w) s

end Sys2Proof.Machine
end

