-- ==== Sys2Proof/Machine/Step.lean ====
section
/-! DEFINITION. One step of the machine: the scheduler's next turn (R214). DFPC fetches nothing (R36, R65). -/

namespace Sys2Proof.Machine

/-- One step. -/
def step (s : State) : Host.Outcome State Fault Refusal := takeTurn (nextTurn s).1 (nextTurn s).2

/-- The state in which the very next step runs the instruction whose bits are w, as opcode_table.json numbers them: an OP20 word
(more than 16 bits) becomes the scheduler's next choice, a FRAME16 word the frame that the next FR_STEP delivers. -/
def State.withFetchWord (s : State) (nbits w : Nat) : State := loadTableWord nbits w s

end Sys2Proof.Machine
end

