-- ==== Sys2Proof/Safety.lean ====
section
/-! DEFINITION. What claims speak of: runs, the transcript's shape, the invariant of the framer and its receiver, the accounting of
ticks and pulses, quiescence and fairness. -/

namespace Sys2Proof.Machine

/-- A list of operations run one after another, in the order of a trace (R79, R81). -/
def runOps : List Instr → State → Host.Outcome State Fault Refusal
  | [], s => .next s
  | i :: is, s =>
    match exec i s with
    | .next t => runOps is t
    | .fault r => .fault r
    | .refused r => .refused r

/-- The state after one operation (the state itself where it answers none). -/
def after (i : Instr) (s : State) : State :=
  match exec i s with
  | .next t => t
  | .fault _ => s
  | .refused _ => s

/-- The states of an endless run whose n-th step is σ n. -/
def trajectory (σ : Nat → Instr) (s : State) : Nat → State
  | 0 => s
  | n + 1 => after (σ n) (trajectory σ s n)

/-- R220: FRS, OVU and EDU have no step. -/
def quiescent (s : State) : Bool := !frBusy s && !s.ovfPend && !s.edgePend

/-- R215: along a run, an operation that stays enabled is eventually taken. -/
def WeaklyFair (i : Instr) (σ : Nat → Instr) (s : State) : Prop :=
  ∀ n, ∃ m, n ≤ m ∧ (σ m = i ∨ enabled i (trajectory σ s m) = false)

/-- The serial link as the transcript leaves it: closed, or open with the bytes sent so far. -/
inductive Link where
  | closed
  | opened (bytes : List Byte)
deriving DecidableEq, Repr

/-- R105, R107: CS_FALL only on a closed link, at most two bytes while it is open, CS_RISE only on an open link. -/
def linkStep : Link → WireEvent → Option Link
  | .closed, .csFall => some (.opened [])
  | .opened bs, .byte b => if bs.length < 2 then some (.opened (bs ++ [b])) else none
  | .opened _, .csRise => some .closed
  | .closed, .byte _ => none
  | .closed, .csRise => none
  | .opened _, .csFall => none

/-- The link after a transcript; none for a transcript that breaks the wire laws. -/
def linkFrom : Link → List WireEvent → Option Link
  | l, [] => some l
  | l, e :: es =>
    match linkStep l e with
    | some l' => linkFrom l' es
    | none => none

/-- The link each phase of a frame belongs to (R20, R101). -/
def linkOfPhase (s : State) : Link :=
  match s.frPhase with
  | .idle => .closed
  | .addr => .opened []
  | .gap => .opened [s.frAddr]
  | .data => .opened [s.frAddr]
  | .endPhase => .opened [s.frAddr, s.frData]

/-- The display registers a transcript leads to, by the receiver's rule R130 alone, from registers m and bytes rx since the last
CS_FALL. -/
def replayFrom : List Byte → Memory → List WireEvent → Memory
  | _, m, [] => m
  | _, m, .csFall :: es => replayFrom [] m es
  | rx, m, .byte b :: es => replayFrom (rx ++ [b]) m es
  | rx, m, .csRise :: es => replayFrom rx (rxWrite rx m) es

/-- DREG[a] <- d and nothing else (R130): every register's value, and which bytes frames have written. -/
def SetsRegister (m m' : Memory) (a d : Byte) : Prop :=
  (∀ x : Byte, m'.read x = if x = a then d else m.read x) ∧
  (∀ x : Nat, m'.written x = if x = a.toNat then some d else m.written x)

/-- R41: CS_N = 0 exactly when a frame is in progress. -/
def csOk (s : State) : Bool := s.csN == !frBusy s

/-- R42 for the busy phases: TC = 0 in ADDR and DATA, TC = 1 in GAP and END. -/
def tcOk (s : State) : Bool :=
  match s.frPhase with
  | .idle => true
  | .addr => !s.tc
  | .gap => s.tc
  | .data => !s.tc
  | .endPhase => s.tc

/-- The invariant of the framer, the wire and the receiver: R41, R42, the wire laws, and DREG is what the receiver's rule makes of
the transcript since power-up (R34: only the receiver writes it). -/
def Inv (s : State) : Prop :=
  csOk s = true ∧ tcOk s = true ∧ linkFrom .closed s.wire = some (linkOfPhase s) ∧ s.dreg = replayFrom [] [] s.wire

/-- What FR operations read and write (R109): FR's elements, the wire, the display's registers and HOST's held requests. -/
def frPart (s : State) : Phase × Bool × Bool × Byte × Byte × List WireEvent × Memory × List (Byte × Byte) :=
  (s.frPhase, s.csN, s.tc, s.frAddr, s.frData, s.wire, s.dreg, s.held)

/-- What PC operations read and write (R109, R172): PC's elements and the responses. -/
def pcPart (s : State) : Half × Bool × Half × Bool × Bool × Long × Long × Half × List Response :=
  (s.tmr, s.ovfPend, s.ovc, s.line, s.edgePend, s.cur, s.hps, s.hpc, s.resp)

/-- The operations of unit FR. -/
def isFrOp (i : Instr) : Bool := unitOf i == .fr

/-- The operations of unit PC, HOST's reads among them. -/
def isPcOp (i : Instr) : Bool := unitOf i == .pc

/-- The operations with an OP20 word (R72). -/
def isBlockOp (i : Instr) : Bool := agentOf i != .disp

/-- How many TICKs a list of operations holds. -/
def tickCount : List Instr → Nat
  | [] => 0
  | i :: is => tickCount is + if i = .tick then 1 else 0

/-- How many FR_STEPs a list of operations holds. -/
def frStepCount : List Instr → Nat
  | [] => 0
  | i :: is => frStepCount is + if i = .frStep then 1 else 0

/-- R165's condition on a run: each wrap sets OVF_PEND (the gate is met) and is not coalesced with another (OVF_PEND was 0). -/
def WrapsCounted : List Instr → State → Prop
  | [], _ => True
  | i :: is, s =>
    (i = .tick → s.tmr = 0xFFFF → (s.line = true ∨ Config.ovfLineGate = false) ∧ s.ovfPend = false) ∧ WrapsCounted is (after i s)

/-- The durations the EDGE_SVCs of a run latch, in order (R163). -/
def latchedBy : List Instr → State → List Long
  | [], _ => []
  | i :: is, s =>
    if i = .edgeSvc ∧ s.edgePend = true then durationOf s.tmr s.ovc :: latchedBy is (after i s)
    else latchedBy is (after i s)

/-- A trace of words put before the scheduler's coming choices (R79). -/
def withTrace (ws : List OpWord) (s : State) : State := { s with schedule := ws.map Turn.op ++ s.schedule }

/-- k steps of the machine. -/
def steps : Nat → State → Host.Outcome State Fault Refusal
  | 0, s => .next s
  | k + 1, s =>
    match step s with
    | .next t => steps k t
    | .fault r => .fault r
    | .refused r => .refused r

end Sys2Proof.Machine
end

