-- ==== Sys2Proof/Laws/State.lean ====
section
/-! SUPPORT. One lemma per field per named update of the state, each true by rfl, so that no later proof unfolds a record update. -/

namespace Sys2Proof.Machine

section
variable (e : WireEvent) (s : State)
@[simp] theorem appendWire_frPhase : (appendWire e s).frPhase = s.frPhase := rfl
@[simp] theorem appendWire_csN : (appendWire e s).csN = s.csN := rfl
@[simp] theorem appendWire_tc : (appendWire e s).tc = s.tc := rfl
@[simp] theorem appendWire_frAddr : (appendWire e s).frAddr = s.frAddr := rfl
@[simp] theorem appendWire_frData : (appendWire e s).frData = s.frData := rfl
@[simp] theorem appendWire_wire : (appendWire e s).wire = s.wire ++ [e] := rfl
@[simp] theorem appendWire_tmr : (appendWire e s).tmr = s.tmr := rfl
@[simp] theorem appendWire_ovfPend : (appendWire e s).ovfPend = s.ovfPend := rfl
@[simp] theorem appendWire_ovc : (appendWire e s).ovc = s.ovc := rfl
@[simp] theorem appendWire_line : (appendWire e s).line = s.line := rfl
@[simp] theorem appendWire_edgePend : (appendWire e s).edgePend = s.edgePend := rfl
@[simp] theorem appendWire_cur : (appendWire e s).cur = s.cur := rfl
@[simp] theorem appendWire_hps : (appendWire e s).hps = s.hps := rfl
@[simp] theorem appendWire_hpc : (appendWire e s).hpc = s.hpc := rfl
@[simp] theorem appendWire_dreg : (appendWire e s).dreg = s.dreg := rfl
@[simp] theorem appendWire_resp : (appendWire e s).resp = s.resp := rfl
@[simp] theorem appendWire_held : (appendWire e s).held = s.held := rfl
@[simp] theorem appendWire_schedule : (appendWire e s).schedule = s.schedule := rfl
@[simp] theorem appendWire_picks : (appendWire e s).picks = s.picks := rfl
@[simp] theorem appendWire_line0In : (appendWire e s).line0In = s.line0In := rfl
@[simp] theorem appendWire_draws : (appendWire e s).draws = s.draws := rfl
end

section
variable (a d : Byte) (s : State)
@[simp] theorem frameWrite_frPhase : (frameWrite a d s).frPhase = s.frPhase := rfl
@[simp] theorem frameWrite_csN : (frameWrite a d s).csN = s.csN := rfl
@[simp] theorem frameWrite_tc : (frameWrite a d s).tc = s.tc := rfl
@[simp] theorem frameWrite_frAddr : (frameWrite a d s).frAddr = s.frAddr := rfl
@[simp] theorem frameWrite_frData : (frameWrite a d s).frData = s.frData := rfl
@[simp] theorem frameWrite_wire : (frameWrite a d s).wire = s.wire := rfl
@[simp] theorem frameWrite_tmr : (frameWrite a d s).tmr = s.tmr := rfl
@[simp] theorem frameWrite_ovfPend : (frameWrite a d s).ovfPend = s.ovfPend := rfl
@[simp] theorem frameWrite_ovc : (frameWrite a d s).ovc = s.ovc := rfl
@[simp] theorem frameWrite_line : (frameWrite a d s).line = s.line := rfl
@[simp] theorem frameWrite_edgePend : (frameWrite a d s).edgePend = s.edgePend := rfl
@[simp] theorem frameWrite_cur : (frameWrite a d s).cur = s.cur := rfl
@[simp] theorem frameWrite_hps : (frameWrite a d s).hps = s.hps := rfl
@[simp] theorem frameWrite_hpc : (frameWrite a d s).hpc = s.hpc := rfl
@[simp] theorem frameWrite_dreg : (frameWrite a d s).dreg = s.dreg.write a.toNat d := rfl
@[simp] theorem frameWrite_resp : (frameWrite a d s).resp = s.resp := rfl
@[simp] theorem frameWrite_held : (frameWrite a d s).held = s.held := rfl
@[simp] theorem frameWrite_schedule : (frameWrite a d s).schedule = s.schedule := rfl
@[simp] theorem frameWrite_picks : (frameWrite a d s).picks = s.picks := rfl
@[simp] theorem frameWrite_line0In : (frameWrite a d s).line0In = s.line0In := rfl
@[simp] theorem frameWrite_draws : (frameWrite a d s).draws = s.draws := rfl
end

section
variable (r : Response) (s : State)
@[simp] theorem respond_frPhase : (respond r s).frPhase = s.frPhase := rfl
@[simp] theorem respond_csN : (respond r s).csN = s.csN := rfl
@[simp] theorem respond_tc : (respond r s).tc = s.tc := rfl
@[simp] theorem respond_frAddr : (respond r s).frAddr = s.frAddr := rfl
@[simp] theorem respond_frData : (respond r s).frData = s.frData := rfl
@[simp] theorem respond_wire : (respond r s).wire = s.wire := rfl
@[simp] theorem respond_tmr : (respond r s).tmr = s.tmr := rfl
@[simp] theorem respond_ovfPend : (respond r s).ovfPend = s.ovfPend := rfl
@[simp] theorem respond_ovc : (respond r s).ovc = s.ovc := rfl
@[simp] theorem respond_line : (respond r s).line = s.line := rfl
@[simp] theorem respond_edgePend : (respond r s).edgePend = s.edgePend := rfl
@[simp] theorem respond_cur : (respond r s).cur = s.cur := rfl
@[simp] theorem respond_hps : (respond r s).hps = s.hps := rfl
@[simp] theorem respond_hpc : (respond r s).hpc = s.hpc := rfl
@[simp] theorem respond_dreg : (respond r s).dreg = s.dreg := rfl
@[simp] theorem respond_resp : (respond r s).resp = s.resp ++ [r] := rfl
@[simp] theorem respond_held : (respond r s).held = s.held := rfl
@[simp] theorem respond_schedule : (respond r s).schedule = s.schedule := rfl
@[simp] theorem respond_picks : (respond r s).picks = s.picks := rfl
@[simp] theorem respond_line0In : (respond r s).line0In = s.line0In := rfl
@[simp] theorem respond_draws : (respond r s).draws = s.draws := rfl
end

section
variable (a d : Byte) (s : State)
@[simp] theorem holdSend_frPhase : (holdSend a d s).frPhase = s.frPhase := rfl
@[simp] theorem holdSend_csN : (holdSend a d s).csN = s.csN := rfl
@[simp] theorem holdSend_tc : (holdSend a d s).tc = s.tc := rfl
@[simp] theorem holdSend_frAddr : (holdSend a d s).frAddr = s.frAddr := rfl
@[simp] theorem holdSend_frData : (holdSend a d s).frData = s.frData := rfl
@[simp] theorem holdSend_wire : (holdSend a d s).wire = s.wire := rfl
@[simp] theorem holdSend_tmr : (holdSend a d s).tmr = s.tmr := rfl
@[simp] theorem holdSend_ovfPend : (holdSend a d s).ovfPend = s.ovfPend := rfl
@[simp] theorem holdSend_ovc : (holdSend a d s).ovc = s.ovc := rfl
@[simp] theorem holdSend_line : (holdSend a d s).line = s.line := rfl
@[simp] theorem holdSend_edgePend : (holdSend a d s).edgePend = s.edgePend := rfl
@[simp] theorem holdSend_cur : (holdSend a d s).cur = s.cur := rfl
@[simp] theorem holdSend_hps : (holdSend a d s).hps = s.hps := rfl
@[simp] theorem holdSend_hpc : (holdSend a d s).hpc = s.hpc := rfl
@[simp] theorem holdSend_dreg : (holdSend a d s).dreg = s.dreg := rfl
@[simp] theorem holdSend_resp : (holdSend a d s).resp = s.resp := rfl
@[simp] theorem holdSend_held : (holdSend a d s).held = s.held ++ [(a, d)] := rfl
@[simp] theorem holdSend_schedule : (holdSend a d s).schedule = s.schedule := rfl
@[simp] theorem holdSend_picks : (holdSend a d s).picks = s.picks := rfl
@[simp] theorem holdSend_line0In : (holdSend a d s).line0In = s.line0In := rfl
@[simp] theorem holdSend_draws : (holdSend a d s).draws = s.draws := rfl
end

section
variable (s : State)
@[simp] theorem useDraw_frPhase : (useDraw s).frPhase = s.frPhase := rfl
@[simp] theorem useDraw_csN : (useDraw s).csN = s.csN := rfl
@[simp] theorem useDraw_tc : (useDraw s).tc = s.tc := rfl
@[simp] theorem useDraw_frAddr : (useDraw s).frAddr = s.frAddr := rfl
@[simp] theorem useDraw_frData : (useDraw s).frData = s.frData := rfl
@[simp] theorem useDraw_wire : (useDraw s).wire = s.wire := rfl
@[simp] theorem useDraw_tmr : (useDraw s).tmr = s.tmr := rfl
@[simp] theorem useDraw_ovfPend : (useDraw s).ovfPend = s.ovfPend := rfl
@[simp] theorem useDraw_ovc : (useDraw s).ovc = s.ovc := rfl
@[simp] theorem useDraw_line : (useDraw s).line = s.line := rfl
@[simp] theorem useDraw_edgePend : (useDraw s).edgePend = s.edgePend := rfl
@[simp] theorem useDraw_cur : (useDraw s).cur = s.cur := rfl
@[simp] theorem useDraw_hps : (useDraw s).hps = s.hps := rfl
@[simp] theorem useDraw_hpc : (useDraw s).hpc = s.hpc := rfl
@[simp] theorem useDraw_dreg : (useDraw s).dreg = s.dreg := rfl
@[simp] theorem useDraw_resp : (useDraw s).resp = s.resp := rfl
@[simp] theorem useDraw_held : (useDraw s).held = s.held := rfl
@[simp] theorem useDraw_schedule : (useDraw s).schedule = s.schedule := rfl
@[simp] theorem useDraw_picks : (useDraw s).picks = s.picks := rfl
@[simp] theorem useDraw_line0In : (useDraw s).line0In = s.line0In.tail := rfl
@[simp] theorem useDraw_draws : (useDraw s).draws = s.draws + 1 := rfl
end

section
variable (g : Bool) (s : State)
@[simp] theorem tickWith_frPhase : (tickWith g s).frPhase = s.frPhase := rfl
@[simp] theorem tickWith_csN : (tickWith g s).csN = s.csN := rfl
@[simp] theorem tickWith_tc : (tickWith g s).tc = s.tc := rfl
@[simp] theorem tickWith_frAddr : (tickWith g s).frAddr = s.frAddr := rfl
@[simp] theorem tickWith_frData : (tickWith g s).frData = s.frData := rfl
@[simp] theorem tickWith_wire : (tickWith g s).wire = s.wire := rfl
@[simp] theorem tickWith_tmr : (tickWith g s).tmr = nextTick s.tmr := rfl
@[simp] theorem tickWith_ovfPend : (tickWith g s).ovfPend = ovfPendAfterTick g s.tmr s.line s.ovfPend := rfl
@[simp] theorem tickWith_ovc : (tickWith g s).ovc = s.ovc := rfl
@[simp] theorem tickWith_line : (tickWith g s).line = s.line := rfl
@[simp] theorem tickWith_edgePend : (tickWith g s).edgePend = s.edgePend := rfl
@[simp] theorem tickWith_cur : (tickWith g s).cur = s.cur := rfl
@[simp] theorem tickWith_hps : (tickWith g s).hps = s.hps := rfl
@[simp] theorem tickWith_hpc : (tickWith g s).hpc = s.hpc := rfl
@[simp] theorem tickWith_dreg : (tickWith g s).dreg = s.dreg := rfl
@[simp] theorem tickWith_resp : (tickWith g s).resp = s.resp := rfl
@[simp] theorem tickWith_held : (tickWith g s).held = s.held := rfl
@[simp] theorem tickWith_schedule : (tickWith g s).schedule = s.schedule := rfl
@[simp] theorem tickWith_picks : (tickWith g s).picks = s.picks := rfl
@[simp] theorem tickWith_line0In : (tickWith g s).line0In = s.line0In := rfl
@[simp] theorem tickWith_draws : (tickWith g s).draws = s.draws := rfl
end

section
variable (v : Bool) (s : State)
@[simp] theorem sampleLine_frPhase : (sampleLine v s).frPhase = s.frPhase := rfl
@[simp] theorem sampleLine_csN : (sampleLine v s).csN = s.csN := rfl
@[simp] theorem sampleLine_tc : (sampleLine v s).tc = s.tc := rfl
@[simp] theorem sampleLine_frAddr : (sampleLine v s).frAddr = s.frAddr := rfl
@[simp] theorem sampleLine_frData : (sampleLine v s).frData = s.frData := rfl
@[simp] theorem sampleLine_wire : (sampleLine v s).wire = s.wire := rfl
@[simp] theorem sampleLine_tmr : (sampleLine v s).tmr = s.tmr := rfl
@[simp] theorem sampleLine_ovfPend : (sampleLine v s).ovfPend = s.ovfPend := rfl
@[simp] theorem sampleLine_ovc : (sampleLine v s).ovc = s.ovc := rfl
@[simp] theorem sampleLine_line : (sampleLine v s).line = v := rfl
@[simp] theorem sampleLine_edgePend : (sampleLine v s).edgePend = edgePendAfterLine v s.line s.edgePend := rfl
@[simp] theorem sampleLine_cur : (sampleLine v s).cur = s.cur := rfl
@[simp] theorem sampleLine_hps : (sampleLine v s).hps = s.hps := rfl
@[simp] theorem sampleLine_hpc : (sampleLine v s).hpc = s.hpc := rfl
@[simp] theorem sampleLine_dreg : (sampleLine v s).dreg = s.dreg := rfl
@[simp] theorem sampleLine_resp : (sampleLine v s).resp = s.resp := rfl
@[simp] theorem sampleLine_held : (sampleLine v s).held = s.held := rfl
@[simp] theorem sampleLine_schedule : (sampleLine v s).schedule = s.schedule := rfl
@[simp] theorem sampleLine_picks : (sampleLine v s).picks = s.picks := rfl
@[simp] theorem sampleLine_line0In : (sampleLine v s).line0In = s.line0In := rfl
@[simp] theorem sampleLine_draws : (sampleLine v s).draws = s.draws := rfl
end

section
variable (s : State)
@[simp] theorem countWrap_frPhase : (countWrap s).frPhase = s.frPhase := rfl
@[simp] theorem countWrap_csN : (countWrap s).csN = s.csN := rfl
@[simp] theorem countWrap_tc : (countWrap s).tc = s.tc := rfl
@[simp] theorem countWrap_frAddr : (countWrap s).frAddr = s.frAddr := rfl
@[simp] theorem countWrap_frData : (countWrap s).frData = s.frData := rfl
@[simp] theorem countWrap_wire : (countWrap s).wire = s.wire := rfl
@[simp] theorem countWrap_tmr : (countWrap s).tmr = s.tmr := rfl
@[simp] theorem countWrap_ovfPend : (countWrap s).ovfPend = false := rfl
@[simp] theorem countWrap_ovc : (countWrap s).ovc = s.ovc + 1 := rfl
@[simp] theorem countWrap_line : (countWrap s).line = s.line := rfl
@[simp] theorem countWrap_edgePend : (countWrap s).edgePend = s.edgePend := rfl
@[simp] theorem countWrap_cur : (countWrap s).cur = s.cur := rfl
@[simp] theorem countWrap_hps : (countWrap s).hps = s.hps := rfl
@[simp] theorem countWrap_hpc : (countWrap s).hpc = s.hpc := rfl
@[simp] theorem countWrap_dreg : (countWrap s).dreg = s.dreg := rfl
@[simp] theorem countWrap_resp : (countWrap s).resp = s.resp := rfl
@[simp] theorem countWrap_held : (countWrap s).held = s.held := rfl
@[simp] theorem countWrap_schedule : (countWrap s).schedule = s.schedule := rfl
@[simp] theorem countWrap_picks : (countWrap s).picks = s.picks := rfl
@[simp] theorem countWrap_line0In : (countWrap s).line0In = s.line0In := rfl
@[simp] theorem countWrap_draws : (countWrap s).draws = s.draws := rfl
end

section
variable (s : State)
@[simp] theorem latchEdge_frPhase : (latchEdge s).frPhase = s.frPhase := rfl
@[simp] theorem latchEdge_csN : (latchEdge s).csN = s.csN := rfl
@[simp] theorem latchEdge_tc : (latchEdge s).tc = s.tc := rfl
@[simp] theorem latchEdge_frAddr : (latchEdge s).frAddr = s.frAddr := rfl
@[simp] theorem latchEdge_frData : (latchEdge s).frData = s.frData := rfl
@[simp] theorem latchEdge_wire : (latchEdge s).wire = s.wire := rfl
@[simp] theorem latchEdge_tmr : (latchEdge s).tmr = 0 := rfl
@[simp] theorem latchEdge_ovfPend : (latchEdge s).ovfPend = s.ovfPend := rfl
@[simp] theorem latchEdge_ovc : (latchEdge s).ovc = 0 := rfl
@[simp] theorem latchEdge_line : (latchEdge s).line = s.line := rfl
@[simp] theorem latchEdge_edgePend : (latchEdge s).edgePend = false := rfl
@[simp] theorem latchEdge_cur : (latchEdge s).cur = durationOf s.tmr s.ovc := rfl
@[simp] theorem latchEdge_hps : (latchEdge s).hps = s.hps + durationOf s.tmr s.ovc := rfl
@[simp] theorem latchEdge_hpc : (latchEdge s).hpc = s.hpc + 1 := rfl
@[simp] theorem latchEdge_dreg : (latchEdge s).dreg = s.dreg := rfl
@[simp] theorem latchEdge_resp : (latchEdge s).resp = s.resp := rfl
@[simp] theorem latchEdge_held : (latchEdge s).held = s.held := rfl
@[simp] theorem latchEdge_schedule : (latchEdge s).schedule = s.schedule := rfl
@[simp] theorem latchEdge_picks : (latchEdge s).picks = s.picks := rfl
@[simp] theorem latchEdge_line0In : (latchEdge s).line0In = s.line0In := rfl
@[simp] theorem latchEdge_draws : (latchEdge s).draws = s.draws := rfl
end

section
variable (l : Bool) (s : State)
@[simp] theorem clearBlock_frPhase : (clearBlock l s).frPhase = .idle := rfl
@[simp] theorem clearBlock_csN : (clearBlock l s).csN = true := rfl
@[simp] theorem clearBlock_tc : (clearBlock l s).tc = false := rfl
@[simp] theorem clearBlock_frAddr : (clearBlock l s).frAddr = 0 := rfl
@[simp] theorem clearBlock_frData : (clearBlock l s).frData = 0 := rfl
@[simp] theorem clearBlock_wire : (clearBlock l s).wire = s.wire := rfl
@[simp] theorem clearBlock_tmr : (clearBlock l s).tmr = 0 := rfl
@[simp] theorem clearBlock_ovfPend : (clearBlock l s).ovfPend = false := rfl
@[simp] theorem clearBlock_ovc : (clearBlock l s).ovc = 0 := rfl
@[simp] theorem clearBlock_line : (clearBlock l s).line = l := rfl
@[simp] theorem clearBlock_edgePend : (clearBlock l s).edgePend = false := rfl
@[simp] theorem clearBlock_cur : (clearBlock l s).cur = 0 := rfl
@[simp] theorem clearBlock_hps : (clearBlock l s).hps = 0 := rfl
@[simp] theorem clearBlock_hpc : (clearBlock l s).hpc = 0 := rfl
@[simp] theorem clearBlock_dreg : (clearBlock l s).dreg = s.dreg := rfl
@[simp] theorem clearBlock_resp : (clearBlock l s).resp = s.resp := rfl
@[simp] theorem clearBlock_held : (clearBlock l s).held = s.held := rfl
@[simp] theorem clearBlock_schedule : (clearBlock l s).schedule = s.schedule := rfl
@[simp] theorem clearBlock_picks : (clearBlock l s).picks = s.picks := rfl
@[simp] theorem clearBlock_line0In : (clearBlock l s).line0In = s.line0In := rfl
@[simp] theorem clearBlock_draws : (clearBlock l s).draws = s.draws := rfl
end

section
variable (w : OpWord) (s : State)
@[simp] theorem loadOp_frPhase : (loadOp w s).frPhase = s.frPhase := rfl
@[simp] theorem loadOp_csN : (loadOp w s).csN = s.csN := rfl
@[simp] theorem loadOp_tc : (loadOp w s).tc = s.tc := rfl
@[simp] theorem loadOp_frAddr : (loadOp w s).frAddr = s.frAddr := rfl
@[simp] theorem loadOp_frData : (loadOp w s).frData = s.frData := rfl
@[simp] theorem loadOp_wire : (loadOp w s).wire = s.wire := rfl
@[simp] theorem loadOp_tmr : (loadOp w s).tmr = s.tmr := rfl
@[simp] theorem loadOp_ovfPend : (loadOp w s).ovfPend = s.ovfPend := rfl
@[simp] theorem loadOp_ovc : (loadOp w s).ovc = s.ovc := rfl
@[simp] theorem loadOp_line : (loadOp w s).line = s.line := rfl
@[simp] theorem loadOp_edgePend : (loadOp w s).edgePend = s.edgePend := rfl
@[simp] theorem loadOp_cur : (loadOp w s).cur = s.cur := rfl
@[simp] theorem loadOp_hps : (loadOp w s).hps = s.hps := rfl
@[simp] theorem loadOp_hpc : (loadOp w s).hpc = s.hpc := rfl
@[simp] theorem loadOp_dreg : (loadOp w s).dreg = s.dreg := rfl
@[simp] theorem loadOp_resp : (loadOp w s).resp = s.resp := rfl
@[simp] theorem loadOp_held : (loadOp w s).held = s.held := rfl
@[simp] theorem loadOp_schedule : (loadOp w s).schedule = .op w :: s.schedule := rfl
@[simp] theorem loadOp_picks : (loadOp w s).picks = s.picks := rfl
@[simp] theorem loadOp_line0In : (loadOp w s).line0In = s.line0In := rfl
@[simp] theorem loadOp_draws : (loadOp w s).draws = s.draws := rfl
end

end Sys2Proof.Machine
end

