-- ==== Sys2Proof/Laws/Ops.lean ====
section
/-! SUPPORT. What each shared operation can do, said once: the receiver and emit touch WIRE and DREG only; a frame step touches
FR, WIRE and DREG only; closing a frame touches WIRE and DREG only. -/

namespace Sys2Proof.Machine

theorem receive_eq (s : State) : receive s = { s with dreg := rxWrite (rxBytes s.wire) s.dreg } := rfl

theorem emit_eq (e : WireEvent) (s : State) :
    emit e s = { s with wire := s.wire ++ [e], dreg := (emit e s).dreg } := by
  cases e
  · rfl
  · rfl
  · rfl

theorem rxFrom_append (acc : List Byte) (w v : List WireEvent) : rxFrom acc (w ++ v) = rxFrom (rxFrom acc w) v := by
  induction w generalizing acc with
  | nil => rfl
  | cons e es ih => cases e <;> exact ih _

@[simp] theorem receive_dreg (s : State) : (receive s).dreg = rxWrite (rxBytes s.wire) s.dreg := rfl

@[simp] theorem rxWrite_pair (a d : Byte) (m : Memory) : rxWrite [a, d] m = m.write a.toNat d := rfl
@[simp] theorem rxWrite_none (m : Memory) : rxWrite [] m = m := rfl
@[simp] theorem rxWrite_one (a : Byte) (m : Memory) : rxWrite [a] m = m := rfl

@[simp] theorem rxBytes_csRise (w : List WireEvent) : rxBytes (w ++ [.csRise]) = rxBytes w := by
  simp [rxBytes, rxFrom_append, rxFrom]

@[simp] theorem rxBytes_csFall (w : List WireEvent) : rxBytes (w ++ [.csFall]) = [] := by
  simp [rxBytes, rxFrom_append, rxFrom]

@[simp] theorem rxBytes_byte (w : List WireEvent) (b : Byte) : rxBytes (w ++ [.byte b]) = rxBytes w ++ [b] := by
  simp [rxBytes, rxFrom_append, rxFrom]

@[simp] theorem emit_csFall_dreg (s : State) : (emit .csFall s).dreg = s.dreg := rfl
@[simp] theorem emit_byte_dreg (b : Byte) (s : State) : (emit (.byte b) s).dreg = s.dreg := rfl

/-- The receiver reacts to an emitted CS_RISE by the bytes since the last CS_FALL. -/
theorem emit_csRise_dreg (s : State) :
    (emit .csRise s).dreg = rxWrite (rxBytes s.wire) s.dreg := by
  simp [emit]

theorem startFrame_eq (a d : Byte) (s : State) :
    startFrame a d s =
      { s with frAddr := a, frData := d, csN := false, tc := false, frPhase := .addr, wire := s.wire ++ [.csFall] } := rfl

theorem frameEvent_eq (s : State) :
    frameEvent s = { s with csN := (frameEvent s).csN, wire := (frameEvent s).wire, dreg := (frameEvent s).dreg } := by
  unfold frameEvent
  split
  · rfl
  · rfl
  · rfl
  · rfl
  · conv => lhs; rw [emit_eq]
    conv => rhs; rw [emit_eq]

/-- FR_STEP changes FR_PHASE, CS_N, TC, WIRE and DREG only (R101, R130). -/
theorem stepFrame_eq (s : State) :
    stepFrame s =
      { s with
        frPhase := nextPhase s.frPhase, tc := tcAfterStep s.frPhase s.tc, csN := (stepFrame s).csN,
        wire := (stepFrame s).wire, dreg := (stepFrame s).dreg } := by
  unfold stepFrame
  rw [frameEvent_eq]

/-- FR_STEP by the phase it finds (R101). -/
theorem stepFrame_cases (s : State) :
    (s.frPhase = .idle ∧ stepFrame s = s) ∨
    (s.frPhase = .addr ∧ stepFrame s = { s with wire := s.wire ++ [.byte s.frAddr], tc := true, frPhase := .gap }) ∨
    (s.frPhase = .gap ∧ stepFrame s = { s with tc := false, frPhase := .data }) ∨
    (s.frPhase = .data ∧ stepFrame s = { s with wire := s.wire ++ [.byte s.frData], tc := true, frPhase := .endPhase }) ∨
    (s.frPhase = .endPhase ∧
      stepFrame s = { s with csN := true, wire := s.wire ++ [.csRise], dreg := (emit .csRise s).dreg, frPhase := .idle }) := by
  cases h : s.frPhase
  · refine .inl ⟨rfl, ?_⟩
    cases s; subst h; rfl
  · refine .inr (.inl ⟨rfl, ?_⟩)
    cases s; subst h; rfl
  · refine .inr (.inr (.inl ⟨rfl, ?_⟩))
    cases s; subst h; rfl
  · refine .inr (.inr (.inr (.inl ⟨rfl, ?_⟩)))
    cases s; subst h; rfl
  · refine .inr (.inr (.inr (.inr ⟨rfl, ?_⟩)))
    simp only [stepFrame, frameEvent, h, tcAfterStep, nextPhase]
    rw [emit_eq]
    simp [emit_csRise_dreg]

/-- Closing a frame changes WIRE and DREG only (R230, R231). -/
theorem closeFrame_eq (s : State) :
    closeFrame s = { s with wire := (closeFrame s).wire, dreg := (closeFrame s).dreg } := by
  unfold closeFrame
  split
  · rfl
  · conv => lhs; rw [emit_eq]
    conv => rhs; rw [emit_eq]

/-- RESET's effect with a given draw (R230). -/
theorem resetWith_eq (l : Bool) (s : State) :
    resetWith l s =
      { State.powerUp l with
        wire := (closeFrame s).wire, dreg := (closeFrame s).dreg, resp := s.resp, held := s.held, schedule := s.schedule,
        picks := s.picks, line0In := s.line0In, draws := s.draws } := by
  unfold resetWith
  rw [closeFrame_eq]
  rfl

/-- The latched duration is exact: it never wraps (R164). -/
theorem durationOf_toNat (t k : Half) : (durationOf t k).toNat = t.toNat + k.toNat * 65536 := by
  have := t.isLt
  have := k.isLt
  simp only [durationOf, BitVec.toNat_add, BitVec.toNat_shiftLeft, Nat.shiftLeft_eq, BitVec.toNat_setWidth, BitVec.zeroExtend_eq_setWidth]
  omega

/-- The timer's next value modulo 2^16 (R160). -/
theorem nextTick_toNat (t : Half) : (nextTick t).toNat = (t.toNat + 1) % 65536 := by
  unfold nextTick
  split
  next h => subst h; rfl
  next => simp [BitVec.toNat_add]

theorem ovfPendAfterTick_eq (gate level pend : Bool) (t : Half) :
    ovfPendAfterTick gate t level pend = (pend || (decide (t = 0xFFFF) && (!gate || level))) := by
  by_cases h : t = 0xFFFF <;> cases gate <;> cases level <;> cases pend <;> simp [ovfPendAfterTick, h]

theorem edgePendAfterLine_eq (v level pend : Bool) : edgePendAfterLine v level pend = (pend || v != level) := by
  cases v <;> cases level <;> cases pend <;> rfl

@[simp] theorem after_send (a d : Byte) (s : State) :
    after (.send a d) s = if frBusy s then holdSend a d s else startFrame a d s := rfl
@[simp] theorem after_rdHpc (s : State) : after .rdHpc s = respond (.hpc s.hpc) s := rfl
@[simp] theorem after_rdCur (s : State) : after .rdCur s = respond (.cur s.cur) s := rfl
@[simp] theorem after_take (s : State) :
    after .take s = respond (.snapshot s.hps s.hpc) { s with hps := 0, hpc := 0 } := rfl
@[simp] theorem after_tick (s : State) : after .tick s = tickWith Config.ovfLineGate s := rfl
@[simp] theorem after_line (v : Bool) (s : State) : after (.line v) s = sampleLine v s := rfl
@[simp] theorem after_ovfSvc (s : State) : after .ovfSvc s = if s.ovfPend then countWrap s else s := rfl
@[simp] theorem after_edgeSvc (s : State) : after .edgeSvc s = if s.edgePend then latchEdge s else s := rfl
@[simp] theorem after_frStep (s : State) : after .frStep s = stepFrame s := rfl
@[simp] theorem after_reset (s : State) : after .reset s = useDraw (resetWith (drawLine0 s) s) := rfl

/-- What one turn can do: it refuses a word that spells no operation, and otherwise it is exec of a block operation, a retry of a
held SEND, or nothing. -/
theorem takeTurn_cases (t : Turn) (s : State) :
    (∃ w r, t = .op w ∧ decodeOp w = .error r ∧ takeTurn t s = .refused (refusalOf r)) ∨
    (∃ w i, t = .op w ∧ decodeOp w = .ok i ∧ takeTurn t s = exec i s) ∨
    (t = .host ∧ s.held = [] ∧ takeTurn t s = .next s) ∨
    (∃ q qs, t = .host ∧ s.held = q :: qs ∧ frBusy s = true ∧ takeTurn t s = .next s) ∨
    (∃ a d qs, t = .host ∧ s.held = (a, d) :: qs ∧ frBusy s = false ∧
      takeTurn t s = exec (.send a d) { s with held := qs }) := by
  cases t with
  | op w =>
    cases h : decodeOp w with
    | error r => exact .inl ⟨w, r, rfl, h, by simp [takeTurn, h]⟩
    | ok i => exact .inr (.inl ⟨w, i, rfl, h, by simp [takeTurn, h]⟩)
  | host =>
    cases hq : s.held with
    | nil => exact .inr (.inr (.inl ⟨rfl, rfl, by simp [takeTurn, retryHeld, hq]⟩))
    | cons q qs =>
      cases hb : frBusy s with
      | true => exact .inr (.inr (.inr (.inl ⟨q, qs, rfl, rfl, rfl, by simp [takeTurn, retryHeld, hq, hb]⟩)))
      | false => exact .inr (.inr (.inr (.inr ⟨q.1, q.2, qs, rfl, rfl, rfl, by simp [takeTurn, retryHeld, hq, hb]⟩)))

end Sys2Proof.Machine
end

