-- ==== Sys2Proof/Laws/Memory.lean ====
section
/-! SUPPORT. The laws of the display register space: read after write, equal written bytes are equal data, which addresses are written, and every
operation keeps the canonical form. -/

namespace Sys2Proof.Machine

theorem Memory.risingFrom_mono (m : Memory) (lo lo' : Nat) (h : lo' ≤ lo) (hm : m.risingFrom lo = true) :
    m.risingFrom lo' = true := by
  cases m with
  | nil => rfl
  | cons c m =>
    simp only [Memory.risingFrom, Bool.and_eq_true, decide_eq_true_eq] at hm ⊢
    exact ⟨⟨by omega, hm.1.2⟩, hm.2⟩

theorem Memory.risingFrom_write (m : Memory) (lo a : Nat) (b : Byte) (hlo : lo ≤ a) (ha : a < 256)
    (hm : m.risingFrom lo = true) : (m.write a b).risingFrom lo = true := by
  induction m generalizing lo with
  | nil => simp [Memory.write, Memory.risingFrom, Config.dregCount, hlo, ha]
  | cons c m ih =>
    obtain ⟨k, v⟩ := c
    simp only [Memory.risingFrom, Bool.and_eq_true, decide_eq_true_eq] at hm
    unfold Memory.write
    split
    · simp only [Memory.risingFrom, Bool.and_eq_true, decide_eq_true_eq]
      exact ⟨⟨hlo, ha⟩, ⟨by omega, hm.1.2⟩, hm.2⟩
    · split
      · subst a
        simp only [Memory.risingFrom, Bool.and_eq_true, decide_eq_true_eq]
        exact hm
      · simp only [Memory.risingFrom, Bool.and_eq_true, decide_eq_true_eq]
        exact ⟨hm.1, ih (k + 1) (by omega) hm.2⟩

/-- A write of a byte address keeps the canonical form. -/
theorem Memory.wf_write (m : Memory) (a b : Byte) (hm : m.wf = true) : (m.write a.toNat b).wf = true :=
  Memory.risingFrom_write m 0 a.toNat b (Nat.zero_le _) a.isLt hm

theorem Memory.written_below (m : Memory) (lo a : Nat) (h : a < lo) (hm : m.risingFrom lo = true) : m.written a = none := by
  induction m generalizing lo with
  | nil => rfl
  | cons c m ih =>
    simp only [Memory.risingFrom, Bool.and_eq_true, decide_eq_true_eq] at hm
    unfold Memory.written
    rw [if_neg (by omega)]
    exact ih (c.1 + 1) (by omega) hm.2

/-- After a write the address holds the byte written. -/
@[simp] theorem Memory.written_write_same (m : Memory) (a : Nat) (b : Byte) : (m.write a b).written a = some b := by
  induction m with
  | nil => simp [Memory.write, Memory.written]
  | cons c m ih =>
    obtain ⟨k, v⟩ := c
    unfold Memory.write
    split
    · simp [Memory.written]
    · split
      · simp [Memory.written]
      · simp [Memory.written, ih, Ne.symm ‹_›]

/-- A write leaves every other address alone. -/
theorem Memory.written_write_other (m : Memory) (a a' : Nat) (b : Byte) (h : a' ≠ a) : (m.write a b).written a' = m.written a' := by
  induction m with
  | nil => simp [Memory.write, Memory.written, Ne.symm h]
  | cons c m ih =>
    obtain ⟨k, v⟩ := c
    unfold Memory.write
    split
    · simp [Memory.written, Ne.symm h]
    · split
      · subst a; simp [Memory.written, Ne.symm h]
      · simp [Memory.written, ih]

/-- A read after a write gives the byte written at its address and what was read before at every other address. -/
theorem Memory.read_write (m : Memory) (a x d : Byte) : (m.write a.toNat d).read x = if x = a then d else m.read x := by
  by_cases h : x = a
  · simp [Memory.read, h]
  · simp [Memory.read, h, Memory.written_write_other _ _ _ _ (mt BitVec.eq_of_toNat_eq h)]

/-- The receiver's write sets one register and nothing else. -/
theorem setsRegister_write (m : Memory) (a d : Byte) : SetsRegister m (m.write a.toNat d) a d := by
  refine ⟨fun x => Memory.read_write m a x d, fun x => ?_⟩
  by_cases h : x = a.toNat
  · simp [h]
  · simp [h, Memory.written_write_other _ _ _ _ h]

/-- At power-up every register holds its free byte (I3). -/
@[simp] theorem Memory.read_powerUp (l : Bool) (a : Byte) : (State.powerUp l).dreg.read a = Config.freeDreg a := rfl

/-- Memories in canonical form with the same written bytes are equal data. -/
theorem Memory.eq_of_written (m m' : Memory) (lo : Nat) (hm : m.risingFrom lo = true) (hm' : m'.risingFrom lo = true)
    (h : ∀ a, m.written a = m'.written a) : m = m' := by
  induction m generalizing lo m' with
  | nil =>
    cases m' with
    | nil => rfl
    | cons c m' => simpa [Memory.written] using h c.1
  | cons c m ih =>
    cases m' with
    | nil => simpa [Memory.written] using h c.1
    | cons c' m' =>
      obtain ⟨k, v⟩ := c
      obtain ⟨k', v'⟩ := c'
      simp only [Memory.risingFrom, Bool.and_eq_true, decide_eq_true_eq] at hm hm'
      have hk := h k
      have hk' := h k'
      have below := Memory.written_below m (k + 1)
      have below' := Memory.written_below m' (k' + 1)
      simp only [Memory.written, if_true] at hk hk'
      have e : k = k' := by
        rcases Nat.lt_trichotomy k k' with l | l | l
        · rw [if_neg (by omega), below' k (by omega) hm'.2] at hk; cases hk
        · exact l
        · rw [if_neg (by omega), below k' (by omega) hm.2] at hk'; cases hk'
      subst e
      simp only [if_true, Option.some.injEq] at hk
      subst hk
      rw [ih m' (k + 1) hm.2 hm'.2]
      intro a
      by_cases ha : k = a
      · subst ha; rw [below k (by omega) hm.2, below' k (by omega) hm'.2]
      · simpa [Memory.written, ha] using h a

/-- onlyDocumented says that whatever is written stands at a documented address. -/
theorem onlyDocumented_iff (m : Memory) : onlyDocumented m = true ↔ ∀ k, m.written k ≠ none → documented k = true := by
  unfold onlyDocumented
  induction m with
  | nil => simp [Memory.written]
  | cons c m ih =>
    obtain ⟨k, v⟩ := c
    simp only [List.all_cons, Bool.and_eq_true, ih]
    constructor
    · rintro ⟨hk, hm⟩ a ha
      by_cases e : k = a
      · exact e ▸ hk
      · exact hm a (by simpa [Memory.written, e] using ha)
    · intro h
      refine ⟨h k (by simp [Memory.written]), fun a ha => ?_⟩
      by_cases e : k = a
      · exact e ▸ h k (by simp [Memory.written])
      · exact h a (by simpa [Memory.written, e] using ha)

/-- A write keeps onlyDocumented exactly when its address is documented. -/
theorem onlyDocumented_write (m : Memory) (a : Nat) (d : Byte) :
    onlyDocumented (m.write a d) = true ↔ documented a = true ∧ ∀ k, k ≠ a → m.written k ≠ none → documented k = true := by
  rw [onlyDocumented_iff]
  constructor
  · intro h
    exact ⟨h a (by simp), fun k hk hw => h k (by rwa [Memory.written_write_other _ _ _ _ hk])⟩
  · rintro ⟨ha, h⟩ k hw
    by_cases hk : k = a
    · exact hk ▸ ha
    · exact h k hk (by rwa [Memory.written_write_other _ _ _ _ hk] at hw)

theorem Memory.reset_wf : State.reset.dreg.wf = true := rfl

theorem rxWrite_wf (rx : List Byte) (m : Memory) (h : m.wf = true) : (rxWrite rx m).wf = true := by
  unfold rxWrite
  split
  · exact Memory.wf_write _ _ _ h
  · exact h

/-- The receiver's reaction keeps the canonical form. -/
theorem receive_wf (s : State) (h : s.dreg.wf = true) : (receive s).dreg.wf = true := rxWrite_wf _ _ h

theorem frameWrite_wf (a d : Byte) (s : State) (h : s.dreg.wf = true) : (frameWrite a d s).dreg.wf = true :=
  Memory.wf_write _ _ _ h

/-- emit keeps the canonical form. -/
theorem emit_wf (e : WireEvent) (s : State) (h : s.dreg.wf = true) : (emit e s).dreg.wf = true := by
  cases e
  · exact h
  · exact h
  · exact receive_wf _ h

theorem closeFrame_wf (s : State) (h : s.dreg.wf = true) : (closeFrame s).dreg.wf = true := by
  unfold closeFrame
  split
  · exact h
  · exact emit_wf _ _ h

theorem stepFrame_wf (s : State) (h : s.dreg.wf = true) : (stepFrame s).dreg.wf = true := by
  rcases stepFrame_cases s with ⟨_, e⟩ | ⟨_, e⟩ | ⟨_, e⟩ | ⟨_, e⟩ | ⟨_, e⟩ <;> rw [e]
  · exact h
  · exact h
  · exact h
  · exact h
  · exact emit_wf _ _ h

end Sys2Proof.Machine
end

