-- ==== Sys2Proof/Laws/PerInstr.lean ====
section
/-! SUPPORT. Per-instruction facts about the syntax: the code of each instruction lies in its row of the opcode table. -/

namespace Sys2Proof.Laws.RowMatch

/-- The word an instruction is encoded to has the row's width, and its bits under the row's mask are the row's match. -/
def Statement (i : Instr) : Prop := (encode i).inRow (rowOf i) = true

/-- A mask of ones over the high part keeps it and clears the low part. -/
theorem append_and_high {n m : Nat} (a : BitVec n) (d : BitVec m) :
    (a ++ d) &&& (BitVec.allOnes n ++ (0 : BitVec m)) = a ++ (0 : BitVec m) := by
  simp only [BitVec.and_append]
  simp

theorem frame_inRow (a d : Byte) : frameOf a d &&& BitVec.ofNat 16 0xFF00 = frameOf a 0 :=
  append_and_high a d

theorem send_inRow (a d : Byte) : wordOf ⟨0x1, a, d⟩ &&& BitVec.ofNat 20 0xF0000 = BitVec.ofNat 20 0x10000 := by
  have h := append_and_high (0x1 : BitVec 4) (a ++ d)
  have hw : wordOf ⟨0x1, a, d⟩ = (0x1 : BitVec 4) ++ (a ++ d) := by
    simp only [wordOf, BitVec.append_assoc]
    rfl
  rw [hw]
  exact h

theorem send (a d : Byte) : Statement (.send a d) := by
  simp only [Statement, encode, rowOf, Code.inRow, send_inRow]
  rfl
theorem rdHpc : Statement .rdHpc := rfl
theorem rdCur : Statement .rdCur := rfl
theorem take : Statement .take := rfl
theorem tick : Statement .tick := rfl
theorem line (v : Bool) : Statement (.line v) := by cases v <;> rfl
theorem ovfSvc : Statement .ovfSvc := rfl
theorem edgeSvc : Statement .edgeSvc := rfl
theorem frStep : Statement .frStep := rfl
theorem reset : Statement .reset := rfl
theorem digit1 (d : Byte) : Statement (.digit1 d) := by
  simp only [Statement, encode, rowOf, Code.inRow, frame_inRow]
  rfl
theorem digit2 (d : Byte) : Statement (.digit2 d) := by
  simp only [Statement, encode, rowOf, Code.inRow, frame_inRow]
  rfl
theorem digit3 (d : Byte) : Statement (.digit3 d) := by
  simp only [Statement, encode, rowOf, Code.inRow, frame_inRow]
  rfl
theorem digit4 (d : Byte) : Statement (.digit4 d) := by
  simp only [Statement, encode, rowOf, Code.inRow, frame_inRow]
  rfl
theorem digit5 (d : Byte) : Statement (.digit5 d) := by
  simp only [Statement, encode, rowOf, Code.inRow, frame_inRow]
  rfl
theorem digit6 (d : Byte) : Statement (.digit6 d) := by
  simp only [Statement, encode, rowOf, Code.inRow, frame_inRow]
  rfl
theorem digit7 (d : Byte) : Statement (.digit7 d) := by
  simp only [Statement, encode, rowOf, Code.inRow, frame_inRow]
  rfl
theorem digit8 (d : Byte) : Statement (.digit8 d) := by
  simp only [Statement, encode, rowOf, Code.inRow, frame_inRow]
  rfl
theorem decodeMode (d : Byte) : Statement (.decodeMode d) := by
  simp only [Statement, encode, rowOf, Code.inRow, frame_inRow]
  rfl
theorem intensity (d : Byte) : Statement (.intensity d) := by
  simp only [Statement, encode, rowOf, Code.inRow, frame_inRow]
  rfl
theorem scanLimit (d : Byte) : Statement (.scanLimit d) := by
  simp only [Statement, encode, rowOf, Code.inRow, frame_inRow]
  rfl
theorem shutdown (d : Byte) : Statement (.shutdown d) := by
  simp only [Statement, encode, rowOf, Code.inRow, frame_inRow]
  rfl
theorem displayTest (d : Byte) : Statement (.displayTest d) := by
  simp only [Statement, encode, rowOf, Code.inRow, frame_inRow]
  rfl

end Sys2Proof.Laws.RowMatch
end

