-- ==== Sys2Proof/Machine/Pseudo.lean ====
section
/-! DEFINITION. The pseudo-operations FRAME, TICKS, SHOW and INIT (30_encoding.md R83 to R86) and the assembly of a trace line to
its OP20 words (R82). -/

namespace Sys2Proof.Machine

/-- FRAME a, d (R83): SEND a, d and four FR_STEP. -/
def frameOps (a d : Byte) : List Instr := [.send a d, .frStep, .frStep, .frStep, .frStep]

/-- The frames of a list of (address, data) pairs, one after another (R112). -/
def framesOps : List (Byte × Byte) → List Instr
  | [] => []
  | (a, d) :: fs => frameOps a d ++ framesOps fs

/-- TICKS n (R84). -/
def ticksOps (n : Nat) : List Instr := List.replicate n .tick

/-- The frames of SHOW from digit register i on: n more digits of v, the least significant first (R85). -/
def showFrom : Nat → Nat → Nat → List (Byte × Byte)
  | _, 0, _ => []
  | i, n + 1, v => (BitVec.ofNat 8 i, BitVec.ofNat 8 (v % 10)) :: showFrom (i + 1) n (v / 10)

/-- SHOW v, N (R85): the frames for i in 1..N. -/
def showFrames (v n : Nat) : List (Byte × Byte) := showFrom 1 n v

/-- INIT N (R86): decode mode, display test, shutdown, scan limit, intensity, in this order. -/
def initFrames (n : Nat) : List (Byte × Byte) :=
  [(9, 255), (15, 0), (12, 1), (11, BitVec.ofNat 8 (n - 1)), (10, BitVec.ofNat 8 n)]

/-- The operations a trace line stands for (R82 to R86), its operands placed in A and D; none where an operand is out of range. -/
def expandLine (l : Line) : Option (List Instr) :=
  if l.check then
    match l with
    | .send a d => some [.send (BitVec.ofNat 8 a) (BitVec.ofNat 8 d)]
    | .rdHpc => some [.rdHpc]
    | .rdCur => some [.rdCur]
    | .take => some [.take]
    | .tick => some [.tick]
    | .line v => some [.line (v == 1)]
    | .ovfSvc => some [.ovfSvc]
    | .edgeSvc => some [.edgeSvc]
    | .frStep => some [.frStep]
    | .reset => some [.reset]
    | .frame a d => some (frameOps (BitVec.ofNat 8 a) (BitVec.ofNat 8 d))
    | .ticks n => some (ticksOps n)
    | .showValue v n => some (framesOps (showFrames v n))
    | .init n => some (framesOps (initFrames n))
  else none

/-- The OP20 words of a trace line. -/
def assembleLine (l : Line) : Option (List OpWord) := (expandLine l).map opWords

end Sys2Proof.Machine
end

