-- ==== Sys2Proof/Machine/Asm.lean ====
section
/-! DEFINITION. The trace syntax (30_encoding.md R82) read from characters: one operation on each line, its operands separated by
a comma and a space, numbers decimal or hexadecimal with 0x, a semicolon starting a comment. -/

namespace Sys2Proof.Machine

/-- The text before a comment (R82). -/
def dropComment : List Char → List Char
  | [] => []
  | c :: cs => if c = ';' then [] else c :: dropComment cs

/-- Blanks before the first other character are dropped. -/
def dropBlanks : List Char → List Char
  | [] => []
  | c :: cs => if c = ' ' then dropBlanks cs else c :: cs

/-- Blanks at both ends are dropped (log entry 9). -/
def trimBlanks (cs : List Char) : List Char := (dropBlanks (dropBlanks cs).reverse).reverse

/-- The value of a decimal or hexadecimal digit. -/
def digitOf (c : Char) : Option Nat :=
  if 48 ≤ c.toNat ∧ c.toNat ≤ 57 then some (c.toNat - 48)
  else if 65 ≤ c.toNat ∧ c.toNat ≤ 70 then some (c.toNat - 55)
  else if 97 ≤ c.toNat ∧ c.toNat ≤ 102 then some (c.toNat - 87)
  else none

/-- A non-empty run of digits in a base, the most significant first, after the value `acc`. -/
def numberFrom (base : Nat) : Nat → List Char → Option Nat
  | acc, [] => some acc
  | acc, c :: cs =>
    match digitOf c with
    | some d => if d < base then numberFrom base (acc * base + d) cs else none
    | none => none

/-- A number of R82: decimal, or hexadecimal with 0x. -/
def numberOf : List Char → Option Nat
  | [] => none
  | '0' :: 'x' :: c :: cs => numberFrom 16 0 (c :: cs)
  | c :: cs => numberFrom 10 0 (c :: cs)

/-- The text up to the first blank, and the rest after it. -/
def splitBlank : List Char → List Char × List Char
  | [] => ([], [])
  | c :: cs => if c = ' ' then ([], cs) else let (w, r) := splitBlank cs; (c :: w, r)

/-- The operands of a line: numbers separated by a comma and a space. -/
def operandsOf : Nat → List Char → Option (List Nat)
  | 0, _ => none
  | fuel + 1, cs =>
    let (w, r) := splitBlank cs
    match w.reverse, r with
    | ',' :: rev, _ :: _ =>
      match numberOf rev.reverse, operandsOf fuel r with
      | some n, some ns => some (n :: ns)
      | _, _ => none
    | _, [] => (numberOf w).map (fun n => [n])
    | _, _ :: _ => none

/-- The line a mnemonic and its operands spell (R82 to R86). -/
def lineOf (mnemonic : List Char) (args : List Nat) : Option Line :=
  match args with
  | [] =>
    if mnemonic = ['R', 'D', '_', 'H', 'P', 'C'] then some .rdHpc
    else if mnemonic = ['R', 'D', '_', 'C', 'U', 'R'] then some .rdCur
    else if mnemonic = ['T', 'A', 'K', 'E'] then some .take
    else if mnemonic = ['T', 'I', 'C', 'K'] then some .tick
    else if mnemonic = ['O', 'V', 'F', '_', 'S', 'V', 'C'] then some .ovfSvc
    else if mnemonic = ['E', 'D', 'G', 'E', '_', 'S', 'V', 'C'] then some .edgeSvc
    else if mnemonic = ['F', 'R', '_', 'S', 'T', 'E', 'P'] then some .frStep
    else if mnemonic = ['R', 'E', 'S', 'E', 'T'] then some .reset
    else none
  | [x] =>
    if mnemonic = ['L', 'I', 'N', 'E'] then some (.line x)
    else if mnemonic = ['T', 'I', 'C', 'K', 'S'] then some (.ticks x)
    else if mnemonic = ['I', 'N', 'I', 'T'] then some (.init x)
    else none
  | [x, y] =>
    if mnemonic = ['S', 'E', 'N', 'D'] then some (.send x y)
    else if mnemonic = ['F', 'R', 'A', 'M', 'E'] then some (.frame x y)
    else if mnemonic = ['S', 'H', 'O', 'W'] then some (.showValue x y)
    else none
  | _ => none

/-- One line of a trace: none for a line that is not of the syntax of R82, an empty list for a line without an operation, and the
line's operations otherwise. -/
def parseLine (cs : List Char) : Option (List Instr) :=
  match trimBlanks (dropComment cs) with
  | [] => some []
  | c :: t =>
    let (m, r) := splitBlank (c :: t)
    match r with
    | [] => (lineOf m []).bind expandLine
    | _ :: _ => (operandsOf (r.length + 1) r).bind (fun ns => (lineOf m ns).bind expandLine)

end Sys2Proof.Machine
end

