-- ==== Sys2Proof/Machine/Serial.lean ====
section
/-! DEFINITION. The bit-level view of the wire (40_framer.md R106): an order of bits, no timing. WIRE itself records whole bytes
and does not depend on it (R51). -/

namespace Sys2Proof.Machine

/-- The eight bits of a byte in the order they go on the wire (R51, R106). -/
def bitsOfByte (o : BitOrder) (b : Byte) : List Bool :=
  match o with
  | .msbFirst => [b.getLsbD 7, b.getLsbD 6, b.getLsbD 5, b.getLsbD 4, b.getLsbD 3, b.getLsbD 2, b.getLsbD 1, b.getLsbD 0]
  | .lsbFirst => [b.getLsbD 0, b.getLsbD 1, b.getLsbD 2, b.getLsbD 3, b.getLsbD 4, b.getLsbD 5, b.getLsbD 6, b.getLsbD 7]

/-- The bits of a transcript, oldest first; the chip-select edges carry none. -/
def wireBits (o : BitOrder) : List WireEvent → List Bool
  | [] => []
  | .byte b :: es => bitsOfByte o b ++ wireBits o es
  | .csFall :: es => wireBits o es
  | .csRise :: es => wireBits o es

/-- The bits of the serial link under the block's own parameter (R7). -/
def serialBits (s : State) : List Bool := wireBits Config.serBitOrder s.wire

end Sys2Proof.Machine
end

