-- ==== Sys2Proof/Certificates/Slice0/Obligations.lean ====
section
/-! DEFINITION. The statements for the provers. Each one's docstring names the rules of spec/ it formalises. -/

open Sys2Proof Sys2Proof.Machine

/-- R72, R73, R75: no bit of an encoding is dropped. Every instruction is well formed by its type. -/
def Obligations.EveryInstructionDecodesBack : Prop :=
  ∀ i : Instr, decode (encode i) = some i

/-- R73: SEND uses all of A and D and has the words 0x10000 to 0x1FFFF, LINE has two words, every other operation one. -/
def Obligations.OperationWordsAreExactlyTheTables : Prop :=
  ∀ w : OpWord,
    (∀ a d : Byte, decodeOp w = .ok (.send a d) ↔ w.toNat = 0x10000 + a.toNat * 256 + d.toNat) ∧
    ((∃ a d : Byte, decodeOp w = .ok (.send a d)) ↔ 0x10000 ≤ w.toNat ∧ w.toNat ≤ 0x1FFFF) ∧
    (∀ v : Bool, decodeOp w = .ok (.line v) ↔ w.toNat = if v then 0x90001 else 0x90000) ∧
    (decodeOp w = .ok .rdHpc ↔ w.toNat = 0x20000) ∧
    (decodeOp w = .ok .rdCur ↔ w.toNat = 0x30000) ∧
    (decodeOp w = .ok .take ↔ w.toNat = 0x40000) ∧
    (decodeOp w = .ok .tick ↔ w.toNat = 0x80000) ∧
    (decodeOp w = .ok .ovfSvc ↔ w.toNat = 0xA0000) ∧
    (decodeOp w = .ok .edgeSvc ↔ w.toNat = 0xB0000) ∧
    (decodeOp w = .ok .frStep ↔ w.toNat = 0xC0000) ∧
    (decodeOp w = .ok .reset ↔ w.toNat = 0xF0000)

/-- R78: which words are refused, with which reason, when their turn comes. That a word with both faults is refused as reserved_op is
log entry 16 (DEDUCED); that the turn of every other word answers a next state, also where its agent has no enabled step, is log
entry 4 (DESIGN CHOICE). -/
def Obligations.ReservedWordsAreRefused : Prop :=
  ∀ (s : State) (w : OpWord) (rest : List Turn), s.schedule = .op w :: rest →
    let op := w.toNat / 65536
    let low := w.toNat % 65536
    let reserved := op = 0x0 ∨ op = 0x5 ∨ op = 0x6 ∨ op = 0x7 ∨ op = 0xD ∨ op = 0xE
    let stray := (op ≠ 0x1 ∧ op ≠ 0x9 ∧ low ≠ 0) ∨ (op = 0x9 ∧ 2 ≤ low)
    (reserved → step s = .refused .reservedOp) ∧
    (¬ reserved → stray → step s = .refused .nonzeroReservedField) ∧
    (¬ reserved → ¬ stray → ∃ t, step s = .next t)

/-- R75, R77: a frame word is the command its address byte selects, with all eight data bits, and no command for a reserved
address. -/
def Obligations.FrameWordsDecodeByTheirAddress : Prop :=
  ∀ f : FrameWord,
    let a := f.toNat / 256
    let d : Byte := BitVec.ofNat 8 (f.toNat % 256)
    (a = 1 → decodeFrame f = some (.digit1 d)) ∧ (a = 2 → decodeFrame f = some (.digit2 d)) ∧
    (a = 3 → decodeFrame f = some (.digit3 d)) ∧ (a = 4 → decodeFrame f = some (.digit4 d)) ∧
    (a = 5 → decodeFrame f = some (.digit5 d)) ∧ (a = 6 → decodeFrame f = some (.digit6 d)) ∧
    (a = 7 → decodeFrame f = some (.digit7 d)) ∧ (a = 8 → decodeFrame f = some (.digit8 d)) ∧
    (a = 9 → decodeFrame f = some (.decodeMode d)) ∧ (a = 10 → decodeFrame f = some (.intensity d)) ∧
    (a = 11 → decodeFrame f = some (.scanLimit d)) ∧ (a = 12 → decodeFrame f = some (.shutdown d)) ∧
    (a = 15 → decodeFrame f = some (.displayTest d)) ∧
    (a = 0 ∨ a = 13 ∨ a = 14 ∨ 16 ≤ a → decodeFrame f = none)

/-- The opcode table's match and mask: what decodes lies in its row, and no code lies in two rows. -/
def Obligations.TableRowsMatchAndExclude : Prop :=
  (∀ (c : Code) (i : Instr), decode c = some i → c.inRow (rowOf i) = true) ∧
  (∀ (c : Code) (i j : Instr), c.inRow (rowOf i) = true → c.inRow (rowOf j) = true → rowOf i = rowOf j)

/-- Words written out from R71, R72 and the frame map R75 (95_test_vectors.md section 2.1), in the opcode table's numbering. -/
def Obligations.SampleWordsDecodeAsTheSpecSays : Prop :=
  decodeTableWord 24 0x109FF = some (.send 9 255) ∧ decodeTableWord 24 0x90001 = some (.line true) ∧
  decodeTableWord 24 0xB0000 = some .edgeSvc ∧ decodeTableWord 24 0x40000 = some .take ∧
  decodeTableWord 24 0x90002 = none ∧ decodeTableWord 24 0x5ABCD = none ∧
  decodeTableWord 16 0x0C01 = some (.shutdown 1) ∧ decodeTableWord 16 0x0803 = some (.digit8 3) ∧
  decodeTableWord 16 0x0D05 = none

/-- R79, R214: a word whose turn it is and that spells operation i makes step run exec i, the turn being used up. -/
def Obligations.StepRunsTheScheduledWord : Prop :=
  ∀ (s : State) (w : OpWord) (rest : List Turn) (i : Instr),
    s.schedule = .op w :: rest → decodeOp w = .ok i → step s = exec i { s with schedule := rest }

/-- R214: where the schedule names no turn the scheduler's choice is free; whichever word it is, step runs the operation it
spells; a choice that is no operation of an agent is HOST's turn. The form of the free choice is the model's (log entry 4). -/
def Obligations.StepRunsTheFreeChoice : Prop :=
  ∀ s : State, s.schedule = [] →
    (∃ w i, Config.freePick s.picks = some w ∧ decodeOp w = .ok i ∧ step s = exec i { s with picks := s.picks + 1 }) ∨
    ((∀ w i, Config.freePick s.picks = some w → decodeOp w ≠ .ok i) ∧ step s = retryHeld { s with picks := s.picks + 1 })

/-- The word placed by withFetchWord is what the very next step runs (log entry 5): an OP20 word as an operation in the state
itself, a FRAME16 word as the frame command the receiver executes at the frame's CS_RISE. -/
def Obligations.PlacedWordIsRunNext : Prop :=
  ∀ (s : State) (w : Nat) (i : Instr),
    (decodeTableWord 24 w = some i → step (s.withFetchWord 24 w) = exec i s) ∧
    (decodeTableWord 16 w = some i →
      ∃ a d : Byte, w = a.toNat * 256 + d.toNat ∧
        step (s.withFetchWord 16 w) =
          exec i { s with
            frPhase := .idle, csN := true, tc := true, frAddr := a, frData := d,
            wire := s.wire ++ [.csFall, .byte a, .byte d, .csRise] })

/-- R200, R78: no instruction faults or is refused on any state, and a step never faults: it stops only at a word that spells no
operation. That the turn of an operation with no enabled step, and a free choice that spells no operation, answer a next state is log
entry 4 (DESIGN CHOICE). -/
def Obligations.NothingStopsButReservedWords : Prop :=
  (∀ (i : Instr) (s : State), ∃ t, exec i s = .next t) ∧
  (∀ s : State, (∃ t, step s = .next t) ∨
    (∃ w rest r, s.schedule = .op w :: rest ∧ decodeOp w = .error r ∧ step s = .refused (refusalOf r)))

/-- R100: SEND in IDLE; SEND while a frame is in progress holds: nothing of the block changes and the request stays with HOST. -/
def Obligations.SendStartsAFrameOrHolds : Prop :=
  ∀ (a d : Byte) (s : State),
    (s.frPhase = .idle →
      exec (.send a d) s = .next { s with
        frAddr := a, frData := d, csN := false, wire := s.wire ++ [.csFall], tc := false, frPhase := .addr }) ∧
    (s.frPhase ≠ .idle →
      ∃ t, exec (.send a d) s = .next t ∧ t = { s with held := t.held } ∧ (a, d) ∈ t.held ∧ ∀ q ∈ s.held, q ∈ t.held)

/-- R11 hold, R110: HOST's turn presents its oldest held SEND: accepted in IDLE as R100 says, kept otherwise. The list of held
requests and its order are the model's (log entry 3). -/
def Obligations.HeldSendIsAcceptedInIdle : Prop :=
  ∀ (s : State) (rest : List Turn) (a d : Byte) (q : List (Byte × Byte)), s.schedule = .host :: rest → s.held = (a, d) :: q →
    (s.frPhase = .idle →
      step s = .next { s with
        schedule := rest, held := q, frAddr := a, frData := d, csN := false, wire := s.wire ++ [.csFall], tc := false,
        frPhase := .addr }) ∧
    (s.frPhase ≠ .idle → step s = .next { s with schedule := rest })

/-- R101: FR_STEP by the phase it finds; the display's registers change only with the CS_RISE (R130). -/
def Obligations.FrStepAdvancesTheFrame : Prop :=
  ∀ s : State,
    (s.frPhase = .idle → exec .frStep s = .next s) ∧
    (s.frPhase = .addr → exec .frStep s = .next { s with wire := s.wire ++ [.byte s.frAddr], tc := true, frPhase := .gap }) ∧
    (s.frPhase = .gap → exec .frStep s = .next { s with tc := false, frPhase := .data }) ∧
    (s.frPhase = .data → exec .frStep s = .next { s with wire := s.wire ++ [.byte s.frData], tc := true, frPhase := .endPhase }) ∧
    (s.frPhase = .endPhase → ∃ t, exec .frStep s = .next t ∧
      t = { s with csN := true, wire := s.wire ++ [.csRise], frPhase := .idle, dreg := t.dreg } ∧
      t.dreg = (emit .csRise s).dreg)

/-- R130: the receiver reacts to a CS_RISE by the bytes since the last CS_FALL: exactly two bytes are a write of the second at the
address of the first, anything else writes nothing; CS_FALL and BYTE events write nothing. -/
def Obligations.ReceiverWritesAtCsRise : Prop :=
  ∀ (s : State) (before : List WireEvent) (rx : List Byte), s.wire = before ++ .csFall :: rx.map .byte →
    (emit .csRise s).wire = s.wire ++ [.csRise] ∧
    (∀ a d, rx = [a, d] → SetsRegister s.dreg (emit .csRise s).dreg a d) ∧
    ((∀ a d, rx ≠ [a, d]) → (emit .csRise s).dreg = s.dreg) ∧
    (emit .csFall s).dreg = s.dreg ∧ (∀ b, (emit (.byte b) s).dreg = s.dreg)

/-- R131 to R138: a digit command writes its own digit register and nothing else, and a frame sent to that address by FR, whatever
steps of the capture unit fall in between, sets the register. -/
def Obligations.DigitCommandsWriteTheirRegister : Prop :=
  ∀ (d : Byte) (s : State) (p : Instr × Byte),
    p ∈ [(Instr.digit1 d, (1 : Byte)), (.digit2 d, 2), (.digit3 d, 3), (.digit4 d, 4), (.digit5 d, 5), (.digit6 d, 6),
      (.digit7 d, 7), (.digit8 d, 8)] →
    (∃ t, exec p.1 s = .next t ∧ t = { s with dreg := t.dreg } ∧
      SetsRegister s.dreg t.dreg p.2 d) ∧
    (s.frPhase = .idle → ∀ ops, ops.filter (fun i => !isPcOp i) = frameOps p.2 d →
      ∃ t, runOps ops s = .next t ∧ SetsRegister s.dreg t.dreg p.2 d)

/-- R139 to R143: as for the digits, for DECODE_MODE, INTENSITY, SCAN_LIMIT, SHUTDOWN and DISPLAY_TEST. -/
def Obligations.ControlCommandsWriteTheirRegister : Prop :=
  ∀ (d : Byte) (s : State) (p : Instr × Byte),
    p ∈ [(Instr.decodeMode d, (9 : Byte)), (.intensity d, 10), (.scanLimit d, 11), (.shutdown d, 12), (.displayTest d, 15)] →
    (∃ t, exec p.1 s = .next t ∧ t = { s with dreg := t.dreg } ∧
      SetsRegister s.dreg t.dreg p.2 d) ∧
    (s.frPhase = .idle → ∀ ops, ops.filter (fun i => !isPcOp i) = frameOps p.2 d →
      ∃ t, runOps ops s = .next t ∧ SetsRegister s.dreg t.dreg p.2 d)

/-- R75, R130: when the frame whose CS_RISE FR_STEP emits spells a frame command, the step runs that command's meaning in the state
FR leaves. -/
def Obligations.ClosedFrameRunsItsCommand : Prop :=
  ∀ (s : State) (before : List WireEvent) (a d : Byte) (i : Instr),
    s.frPhase = .endPhase → s.wire = before ++ [.csFall, .byte a, .byte d] → decodeFrame (frameOf a d) = some i →
    exec .frStep s = exec i { s with csN := true, wire := s.wire ++ [.csRise], frPhase := .idle }

/-- R160: TICK, under the block's own gate and under the other value of the parameter OVF_LINE_GATE. -/
def Obligations.TickAdvancesTheTimer : Prop :=
  ∀ s : State,
    (∃ t, exec .tick s = .next t ∧ t = { s with tmr := t.tmr, ovfPend := t.ovfPend } ∧
      (s.tmr ≠ 0xFFFF → t.tmr.toNat = s.tmr.toNat + 1 ∧ t.ovfPend = s.ovfPend) ∧
      (s.tmr = 0xFFFF → t.tmr = 0 ∧ (s.line = true → t.ovfPend = true) ∧ (s.line = false → t.ovfPend = s.ovfPend))) ∧
    (tickWith true s = after .tick s) ∧
    (s.tmr = 0xFFFF → tickWith false s = { tickWith true s with ovfPend := true }) ∧
    (s.tmr ≠ 0xFFFF → tickWith false s = tickWith true s)

/-- R161, R174: LINE; a change of level in either direction is an edge, an unchanged level changes nothing. -/
def Obligations.LineRecordsAnEdgeOnAChange : Prop :=
  ∀ (v : Bool) (s : State),
    (v = s.line → exec (.line v) s = .next s) ∧
    (v ≠ s.line → exec (.line v) s = .next { s with line := v, edgePend := true })

/-- R162: OVF_SVC; with OVF_PEND = 0 there is no step. -/
def Obligations.OvfSvcCountsOneWrap : Prop :=
  ∀ s : State,
    (s.ovfPend = false → exec .ovfSvc s = .next s) ∧
    (s.ovfPend = true → ∃ t, exec .ovfSvc s = .next t ∧ t = { s with ovfPend := false, ovc := t.ovc } ∧
      t.ovc.toNat = (s.ovc.toNat + 1) % 2 ^ 16)

/-- R163, R164: EDGE_SVC; with EDGE_PEND = 0 there is no step. The duration is exact and OVF_PEND is left alone. -/
def Obligations.EdgeSvcLatchesTheDuration : Prop :=
  ∀ s : State,
    (s.edgePend = false → exec .edgeSvc s = .next s) ∧
    (s.edgePend = true → ∃ t, exec .edgeSvc s = .next t ∧
      t = { s with cur := t.cur, ovc := 0, tmr := 0, hpc := t.hpc, hps := t.hps, edgePend := false } ∧
      t.cur.toNat = s.tmr.toNat + s.ovc.toNat * 65536 ∧
      t.hpc.toNat = (s.hpc.toNat + 1) % 2 ^ 16 ∧
      t.hps.toNat = (s.hps.toNat + t.cur.toNat) % 2 ^ 32)

/-- R166: TAKE returns the pair as it was and clears both accumulators in one step; nothing else changes. The pair is consistent:
over a window that began with both at 0, it is the sum, modulo 2^32, of exactly the durations latched in the window and their number
modulo 2^16; nothing is lost or counted twice. -/
def Obligations.TakeSwapsTheAccumulators : Prop :=
  (∀ s : State, exec .take s = .next { s with hps := 0, hpc := 0, resp := s.resp ++ [.snapshot s.hps s.hpc] }) ∧
  (∀ (ops : List Instr) (s t : State), s.hps = 0 → s.hpc = 0 → .take ∉ ops → .reset ∉ ops → runOps ops s = .next t →
    ∃ u, exec .take t = .next u ∧
      u.resp = t.resp ++ [.snapshot ((latchedBy ops s).foldl (· + ·) 0) (BitVec.ofNat 16 (latchedBy ops s).length)])

/-- R167: RD_HPC returns HPC; no state changes apart from RESP. -/
def Obligations.RdHpcReturnsThePulseCount : Prop :=
  ∀ s : State, exec .rdHpc s = .next { s with resp := s.resp ++ [.hpc s.hpc] } ∧
    (s.edgePend = true → ∀ t u, exec .edgeSvc s = .next t → exec .rdHpc t = .next u →
      ∃ v, u.resp = s.resp ++ [.hpc v] ∧ v.toNat = (s.hpc.toNat + 1) % 2 ^ 16)

/-- R168: RD_CUR returns CUR; no state changes apart from RESP; after RESET and before any EDGE_SVC it returns 0; CUR is kept across
TAKE. -/
def Obligations.RdCurReturnsTheLatch : Prop :=
  (∀ s : State, exec .rdCur s = .next { s with resp := s.resp ++ [.cur s.cur] }) ∧
  (∀ (s : State) (ops : List Instr), .edgeSvc ∉ ops → ∃ t u, runOps (.reset :: ops) s = .next t ∧ exec .rdCur t = .next u ∧
    u.resp = t.resp ++ [.cur 0]) ∧
  (∀ s t : State, exec .take s = .next t → t.cur = s.cur)

/-- R230: RESET gives the Reset column of R40, with LINE a draw that nothing here constrains; it closes a frame in progress on the
wire; WIRE, RESP and DREG are kept otherwise. Power-up is a RESET of a state with WIRE and RESP empty and DREG unspecified. The
model's choices in it: HOST's held requests and the scheduler are kept (log entries 3 and 4), a supplied level is used up (log entry
8), and a DREG with no written byte is the empty list, each byte a free value (log entry 7). -/
def Obligations.ResetGivesTheResetColumn : Prop :=
  ∀ s : State, ∃ t, exec .reset s = .next t ∧
    t = { s with
      frPhase := .idle, csN := true, tc := false, frAddr := 0, frData := 0, wire := t.wire, tmr := 0, ovfPend := false, ovc := 0,
      line := t.line, edgePend := false, cur := 0, hps := 0, hpc := 0, dreg := t.dreg, line0In := t.line0In, draws := t.draws } ∧
    (s.csN = true → t.wire = s.wire ∧ t.dreg = s.dreg) ∧
    (s.csN = false → t.wire = s.wire ++ [.csRise] ∧ t.dreg = (emit .csRise s).dreg) ∧
    (s.csN = true → s.wire = [] → s.resp = [] → s.dreg = [] →
      t = { State.powerUp t.line with
        held := s.held, schedule := s.schedule, picks := s.picks, line0In := t.line0In, draws := t.draws })

/-- R40, R230: LINE0 is an input of the reset: with a supplied level, whichever it is, RESET leaves LINE at that level and uses it
up; with none LINE is the free value, whatever it is. How draws are supplied and counted is the model's choice (log entry 8). -/
def Obligations.ResetTakesItsDraw : Prop :=
  ∀ s : State, ∃ t, exec .reset s = .next t ∧ t.edgePend = false ∧ t.draws = s.draws + 1 ∧
    (∀ l ls, s.line0In = l :: ls → t.line = l ∧ t.line0In = ls) ∧
    (s.line0In = [] → t.line = Config.freeLine0 s.draws ∧ t.line0In = [])

/-- R231: RESET during a frame discards the frame in ADDR, GAP and DATA and completes it in END, in every state of the framer's
invariant. -/
def Obligations.ResetCutsOrCompletesTheFrame : Prop :=
  ∀ s : State, Inv s → ∃ t, exec .reset s = .next t ∧
    (s.frPhase = .idle → t.wire = s.wire ∧ t.dreg = s.dreg) ∧
    (s.frPhase = .addr ∨ s.frPhase = .gap ∨ s.frPhase = .data → t.wire = s.wire ++ [.csRise] ∧ t.dreg = s.dreg) ∧
    (s.frPhase = .endPhase → t.wire = s.wire ++ [.csRise] ∧ SetsRegister s.dreg t.dreg s.frAddr s.frData)

/-- R41, R42, R105, R34: the framer's invariant is kept by every step of every state that has it. -/
def Obligations.EveryStepKeepsTheFramerInvariant : Prop :=
  ∀ s t : State, Inv s → step s = .next t → Inv t

/-- The framer's invariant holds at reset, whatever the level of the input; every register of the display then holds a free byte (I3;
its form, `Config.freeDreg`, is the model's, log entry 7), and DISPLAYED(N) is undefined for every N (VD14). -/
def Obligations.ResetStateHasTheFramerInvariant : Prop :=
  Inv State.reset ∧
  ∀ l, Inv (State.powerUp l) ∧ (∀ a, (State.powerUp l).dreg.read a = Config.freeDreg a) ∧
    ∀ n, displayed (State.powerUp l).dreg n = none

/-- R57: every step keeps the display register space in its canonical form, inside its 256 addresses. -/
def Obligations.EveryStepKeepsTheMemoryForm : Prop :=
  ∀ s t : State, s.dreg.wf = true → step s = .next t → t.dreg.wf = true

/-- R105: in every state of the framer's invariant, between two CS_FALLs of the transcript there is a CS_RISE, and while a frame is
in progress chip-select is asserted. -/
def Obligations.FramesNeverOverlap : Prop :=
  ∀ s : State, Inv s →
    (∀ before mid rest, s.wire = before ++ .csFall :: (mid ++ .csFall :: rest) → WireEvent.csRise ∈ mid) ∧
    (s.csN = false ↔ s.frPhase ≠ .idle)

/-- R108: only SEND, FR_STEP and RESET append to WIRE, and nothing removes an event. -/
def Obligations.OnlyThreeOperationsTouchTheWire : Prop :=
  ∀ (i : Instr) (s t : State), exec i s = .next t →
    t.wire = s.wire ∨
    ((∃ a d, i = .send a d) ∧ t.wire = s.wire ++ [.csFall]) ∨
    (i = .frStep ∧ ((∃ b, t.wire = s.wire ++ [.byte b]) ∨ t.wire = s.wire ++ [.csRise])) ∨
    (i = .reset ∧ s.csN = false ∧ t.wire = s.wire ++ [.csRise])

/-- R172: the writers of each PC element. -/
def Obligations.PcElementsHaveTheirWriters : Prop :=
  ∀ (i : Instr) (s t : State), exec i s = .next t →
    (t.tmr ≠ s.tmr → i = .tick ∨ i = .edgeSvc ∨ i = .reset) ∧
    (t.ovfPend ≠ s.ovfPend → i = .tick ∨ i = .ovfSvc ∨ i = .reset) ∧
    (t.ovc ≠ s.ovc → i = .ovfSvc ∨ i = .edgeSvc ∨ i = .reset) ∧
    (t.line ≠ s.line → (∃ v, i = .line v) ∨ i = .reset) ∧
    (t.edgePend ≠ s.edgePend → (∃ v, i = .line v) ∨ i = .edgeSvc ∨ i = .reset) ∧
    (t.cur ≠ s.cur → i = .edgeSvc ∨ i = .reset) ∧
    (t.hps ≠ s.hps → i = .edgeSvc ∨ i = .take ∨ i = .reset) ∧
    (t.hpc ≠ s.hpc → i = .edgeSvc ∨ i = .take ∨ i = .reset)

/-- R20, R21, R22, R23, R34: the writers of FR's elements, with the values they write, and the writers of the display's registers. -/
def Obligations.FrElementsHaveTheirWriters : Prop :=
  ∀ (i : Instr) (s t : State), exec i s = .next t →
    (t.frPhase ≠ s.frPhase → ((∃ a d, i = .send a d) ∧ t.frPhase = .addr) ∨
      (i = .frStep ∧ (s.frPhase, t.frPhase) ∈
        [(Phase.addr, Phase.gap), (.gap, .data), (.data, .endPhase), (.endPhase, .idle)]) ∨
      (i = .reset ∧ t.frPhase = .idle)) ∧
    (t.csN ≠ s.csN → ((∃ a d, i = .send a d) ∧ t.csN = false) ∨ (i = .frStep ∧ s.frPhase = .endPhase ∧ t.csN = true) ∨
      (i = .reset ∧ t.csN = true)) ∧
    (t.tc ≠ s.tc → ((∃ a d, i = .send a d) ∧ t.tc = false) ∨
      (i = .frStep ∧ (s.frPhase = .addr ∨ s.frPhase = .data) ∧ t.tc = true) ∨ (i = .frStep ∧ s.frPhase = .gap ∧ t.tc = false) ∨
      (i = .reset ∧ t.tc = false)) ∧
    (t.frAddr ≠ s.frAddr ∨ t.frData ≠ s.frData →
      i = .send t.frAddr t.frData ∨ (i = .reset ∧ t.frAddr = 0 ∧ t.frData = 0)) ∧
    (t.dreg ≠ s.dreg → isBlockOp i = false ∨ (i = .frStep ∧ s.frPhase = .endPhase) ∨ (i = .reset ∧ s.csN = false))

/-- R35, R104: RESP only grows, and only by RD_HPC, RD_CUR and TAKE. -/
def Obligations.OnlyHostReadsRespond : Prop :=
  ∀ (i : Instr) (s t : State), exec i s = .next t →
    t.resp = s.resp ∨
    (i = .rdHpc ∧ t.resp = s.resp ++ [.hpc s.hpc]) ∨ (i = .rdCur ∧ t.resp = s.resp ++ [.cur s.cur]) ∨
    (i = .take ∧ t.resp = s.resp ++ [.snapshot s.hps s.hpc])

/-- R109: an FR operation neither reads nor writes PC state, a PC operation neither reads nor writes FR state, and the two commute. -/
def Obligations.FramerAndCaptureAreIndependent : Prop :=
  ∀ i j : Instr, isFrOp i = true → isPcOp j = true →
    (∀ s t, exec i s = .next t → pcPart t = pcPart s) ∧
    (∀ s t, exec j s = .next t → frPart t = frPart s) ∧
    (∀ s s' t t', frPart s = frPart s' → exec i s = .next t → exec i s' = .next t' → frPart t = frPart t') ∧
    (∀ s s' t t', pcPart s = pcPart s' → exec j s = .next t → exec j s' = .next t' → pcPart t = pcPart t') ∧
    (∀ s, runOps [i, j] s = runOps [j, i] s)

/-- R39: what any of HOST's operations returns depends on HPC, CUR and HPS alone. -/
def Obligations.HostSeesOnlyThreeRegisters : Prop :=
  ∀ (i : Instr) (s s' : State), hostMayIssue i = true → s.hpc = s'.hpc → s.cur = s'.cur → s.hps = s'.hps →
    ∃ t t' r, exec i s = .next t ∧ exec i s' = .next t' ∧ t.resp = s.resp ++ r ∧ t'.resp = s'.resp ++ r

/-- R203, R214, R201: an operation that is not enabled changes nothing but HOST's held requests; a step of FRS, OVU or EDU changes
the state exactly when it is enabled. -/
def Obligations.DisabledOperationsChangeNothing : Prop :=
  (∀ (i : Instr) (s : State), isBlockOp i = true → enabled i s = false →
    ∃ t, exec i s = .next t ∧ { t with held := s.held } = s) ∧
  (∀ (i : Instr) (s : State), i = .frStep ∨ i = .ovfSvc ∨ i = .edgeSvc → (enabled i s = true ↔ exec i s ≠ .next s))

/-- R220: a state is quiescent exactly when FRS, OVU and EDU have no step. -/
def Obligations.QuiescentMeansNoServiceStep : Prop :=
  ∀ s : State, quiescent s = true ↔
    (exec .frStep s = .next s ∧ exec .ovfSvc s = .next s ∧ exec .edgeSvc s = .next s)

/-- R107: a SEND accepted in IDLE and the next four FR_STEPs, with no RESET between and whatever else falls between them (ticks,
edges, services, HOST's reads, further SENDs of HOST, which hold), put exactly the frame on the wire; the receiver writes it. -/
def Obligations.FrameLawUnderInterleaving : Prop :=
  ∀ (a d : Byte) (between : List Instr) (s : State), s.frPhase = .idle →
    (∀ i ∈ between, isBlockOp i = true ∧ i ≠ .reset) → frStepCount between = 3 →
    ∃ t, runOps (.send a d :: (between ++ [.frStep])) s = .next t ∧
      t.wire = s.wire ++ [.csFall, .byte a, .byte d, .csRise] ∧ t.frPhase = .idle ∧ t.csN = true ∧ t.tc = true ∧
      t.dreg = s.dreg.write a.toNat d

/-- R112: frames issued in order, each after the one before it has reached IDLE and with any capture and read operations between
their words, appear on the wire one after another, and the receiver applies their writes in that order A SEND presented while a
frame is in progress and presented again by HOST's turn is SendStartsAFrameOrHolds and HeldSendIsAcceptedInIdle, step by step. -/
def Obligations.FrameSequenceLaw : Prop :=
  ∀ (fs : List (Byte × Byte)) (ops : List Instr) (s : State), s.frPhase = .idle →
    ops.filter (fun i => !isPcOp i) = framesOps fs →
    ∃ t, runOps ops s = .next t ∧ t.frPhase = .idle ∧ t.held = s.held ∧
      t.wire = s.wire ++ fs.flatMap (fun p => [.csFall, .byte p.1, .byte p.2, .csRise]) ∧
      t.dreg = fs.foldl (fun m p => m.write p.1.toNat p.2) s.dreg

/-- R42, IDLE: after a run without RESET from IDLE to IDLE, TC = 1 when a frame has completed and as before otherwise; RESET leaves
TC = 0. -/
def Obligations.TransferCompleteInIdle : Prop :=
  (∀ (ops : List Instr) (s t : State), (∀ i ∈ ops, isBlockOp i = true ∧ i ≠ .reset) → s.frPhase = .idle →
    runOps ops s = .next t → t.frPhase = .idle → t.tc = (s.tc || decide (t.wire ≠ s.wire))) ∧
  (∀ s t : State, exec .reset s = .next t → t.frPhase = .idle ∧ t.tc = false)

/-- R102: in every state of the framer's invariant the FR_STEPs out of GAP and out of END find TC = 1, and they are enabled. -/
def Obligations.WaitsFindTransferComplete : Prop :=
  ∀ s : State, Inv s → s.frPhase = .gap ∨ s.frPhase = .endPhase → s.tc = true ∧ enabled .frStep s = true

/-- R110, R215: under weak fairness of FRS a frame in progress reaches IDLE, whatever the other agents do. -/
def Obligations.FairFramerReachesIdle : Prop :=
  ∀ (σ : Nat → Instr) (s : State), WeaklyFair .frStep σ s →
    ∀ n, ∃ m, n ≤ m ∧ (trajectory σ s m).frPhase = .idle

/-- R215: under weak fairness of OVU and of EDU a pending flag is eventually down. -/
def Obligations.FairServicesClearTheirFlags : Prop :=
  ∀ (σ : Nat → Instr) (s : State),
    (WeaklyFair .ovfSvc σ s → ∀ n, ∃ m, n ≤ m ∧ (trajectory σ s m).ovfPend = false) ∧
    (WeaklyFair .edgeSvc σ s → ∀ n, ∃ m, n ≤ m ∧ (trajectory σ s m).edgePend = false)

/-- R165: what CUR measures: the ticks between two EDGE_SVCs, when every wrap was counted. The premise that no wrap was pending at
the first EDGE_SVC is the model's reading (R205 shows it is needed). -/
def Obligations.CurMeasuresTheTicksBetweenEdges : Prop :=
  ∀ (ops : List Instr) (s s' t : State),
    s.edgePend = true → s.ovfPend = false → exec .edgeSvc s = .next s' →
    .edgeSvc ∉ ops → .reset ∉ ops → tickCount ops < 2 ^ 32 → WrapsCounted ops s' → runOps ops s' = .next t →
    t.ovfPend = false → t.edgePend = true →
    ∃ u, exec .edgeSvc t = .next u ∧ u.cur.toNat = tickCount ops

/-- R241: under the gate, a half-period with LINE = 0 of L ticks and w wraps latches L - 65536 * w. -/
def Obligations.GatedWrapsAreNotCounted : Prop :=
  ∀ (n : Nat) (s : State), s.tmr = 0 → s.ovc = 0 → s.line = false → s.edgePend = false →
    ∃ t, runOps (ticksOps n ++ [.line true, .edgeSvc]) s = .next t ∧ t.cur.toNat = n - 65536 * (n / 65536) ∧
      t.ovfPend = s.ovfPend

/-- R205, R169: with both flags pending both services are enabled; OVF_SVC first counts the wrap into the ending half-period (modulo
2^32), EDGE_SVC first leaves it to the starting one. -/
def Obligations.CoincidentOverflowAndEdge : Prop :=
  ∀ s : State, s.ovfPend = true → s.edgePend = true →
    enabled .ovfSvc s = true ∧ enabled .edgeSvc s = true ∧
    (∃ t, runOps [.ovfSvc, .edgeSvc] s = .next t ∧ t.cur.toNat = (s.tmr.toNat + (s.ovc.toNat + 1) * 65536) % 2 ^ 32 ∧ t.ovc = 0) ∧
    (∃ t, runOps [.edgeSvc, .ovfSvc] s = .next t ∧ t.cur.toNat = s.tmr.toNat + s.ovc.toNat * 65536 ∧ t.ovc = 1)

/-- R238: the coincidence moves one timer period between two adjacent durations and keeps their sum: after any ticks and wraps served
alike, the next edge leaves the same HPS and HPC in both orders. -/
def Obligations.CoincidenceKeepsTheSum : Prop :=
  ∀ (s : State) (mid : List Instr), s.ovfPend = true → s.edgePend = true → (∀ i ∈ mid, i = .tick ∨ i = .ovfSvc) →
    ∃ t u, runOps ([.ovfSvc, .edgeSvc] ++ mid ++ [.line (!s.line), .edgeSvc]) s = .next t ∧
      runOps ([.edgeSvc, .ovfSvc] ++ mid ++ [.line (!s.line), .edgeSvc]) s = .next u ∧
      t.hps = u.hps ∧ t.hpc = u.hpc ∧ t = { u with cur := t.cur }

/-- R207, R61: TAKE and EDGE_SVC in either order return a consistent pair; an edge pending at TAKE is counted in the next window. -/
def Obligations.TakeAndEdgeInEitherOrder : Prop :=
  ∀ s : State, s.edgePend = true →
    (∃ t, runOps [.take, .edgeSvc] s = .next t ∧ t.resp = s.resp ++ [.snapshot s.hps s.hpc] ∧ t.hpc = 1 ∧ t.hps = t.cur) ∧
    (∃ t, runOps [.edgeSvc, .take] s = .next t ∧ t.resp = s.resp ++ [.snapshot (s.hps + t.cur) (s.hpc + 1)] ∧ t.hpc = 0 ∧
      t.hps = 0)

/-- R170: pending flags coalesce: a wrap while OVF_PEND is 1 and a change of level while EDGE_PEND is 1 add nothing. -/
def Obligations.PendingFlagsCoalesce : Prop :=
  ∀ s : State,
    (s.ovfPend = true → s.tmr = 0xFFFF → exec .tick s = .next { s with tmr := 0 }) ∧
    (s.edgePend = true → ∀ v, exec (.line v) s = .next { s with line := v })

/-- R56: TAKE is not idempotent: a second TAKE with no EDGE_SVC between returns (0, 0); two reads with no step between return equal
values; a repeated frame appends its four events again and leaves DREG as one frame does. -/
def Obligations.SideEffectsOfRepeating : Prop :=
  (∀ (ops : List Instr) (s t : State), .edgeSvc ∉ ops → runOps (.take :: ops) s = .next t →
    ∃ u, exec .take t = .next u ∧ u.resp = t.resp ++ [.snapshot 0 0]) ∧
  (∀ s : State, ∃ t u, runOps [.rdHpc, .rdHpc] s = .next t ∧ t.resp = s.resp ++ [.hpc s.hpc, .hpc s.hpc] ∧
    runOps [.rdCur, .rdCur] s = .next u ∧ u.resp = s.resp ++ [.cur s.cur, .cur s.cur]) ∧
  (∀ (a d : Byte) (s : State), s.frPhase = .idle → ∃ t u, runOps (frameOps a d) s = .next t ∧ runOps (frameOps a d) t = .next u ∧
    u.wire = t.wire ++ [.csFall, .byte a, .byte d, .csRise] ∧ u.dreg = t.dreg)

/-- R77, R144: a frame to a reserved address is no command, is sent unchanged and its data byte is stored. -/
def Obligations.ReservedAddressesAreSentAndStored : Prop :=
  ∀ (a d : Byte) (s : State), a = 0x00 ∨ a = 0x0D ∨ a = 0x0E ∨ 0x10 ≤ a.toNat → s.frPhase = .idle →
    decodeFrame (frameOf a d) = none ∧
    ∃ t, runOps (frameOps a d) s = .next t ∧ t.wire = s.wire ++ [.csFall, .byte a, .byte d, .csRise] ∧
      SetsRegister s.dreg t.dreg a d

/-- R145, I2, R234: DISPLAYED(N) is defined exactly when frames have left the control registers, the intensity among them, and the
digits as listed, and none has gone to a reserved address; it is then the decimal value of the digits. That a byte must have been
written by a frame to count is the reading of R232 and VD14 that log entry 7 names; how R145 and I2 go together is log entry 17. -/
def Obligations.DisplayedIsTheDigitsValue : Prop :=
  ∀ (m : Memory) (n x : Nat), 1 ≤ n → n ≤ 8 →
    (displayed m n = some x ↔
      m.read 9 = 255 ∧ m.read 12 = 1 ∧ m.read 15 = 0 ∧ m.read 11 = BitVec.ofNat 8 (n - 1) ∧ m.read 10 = BitVec.ofNat 8 n ∧
      (∀ k : Nat, 1 ≤ k → k ≤ n → (m.read (BitVec.ofNat 8 k)).toNat ≤ 9) ∧
      (∀ k : Nat, k ∈ [9, 10, 11, 12, 15] ∨ (1 ≤ k ∧ k ≤ n) → m.written k ≠ none) ∧
      (∀ k : Nat, m.written k ≠ none → (1 ≤ k ∧ k ≤ 12) ∨ k = 15) ∧
      x = ∑ k ∈ Finset.range n, (m.read (BitVec.ofNat 8 (k + 1))).toNat * 10 ^ k)

/-- R146: the digit law: after SHOW v, N has run, with any capture and read operations between its words, the digit registers 1..N
hold the decimal digits of v, every other register is unchanged, and DISPLAYED(N), where defined, is v mod 10^N; it is defined when the
control registers are as INIT N leaves them and no frame has gone to a reserved address (the model's reading, log entries 7 and 17). -/
def Obligations.ShowWritesTheDecimalDigits : Prop :=
  ∀ (v n : Nat) (ops : List Instr) (s : State), 1 ≤ n → n ≤ 8 → s.frPhase = .idle →
    ops.filter (fun i => !isPcOp i) = framesOps (showFrames v n) →
    ∃ t, runOps ops s = .next t ∧ t.frPhase = .idle ∧
      (∀ k : Byte, 1 ≤ k.toNat → k.toNat ≤ n →
        (t.dreg.read k).toNat = v / 10 ^ (k.toNat - 1) % 10 ∧ t.dreg.written k.toNat = some (t.dreg.read k)) ∧
      (∀ k : Byte, k.toNat = 0 ∨ n < k.toNat →
        t.dreg.read k = s.dreg.read k ∧ t.dreg.written k.toNat = s.dreg.written k.toNat) ∧
      (∀ x, displayed t.dreg n = some x → x = v % 10 ^ n) ∧
      (displayReady s.dreg n = true → onlyDocumented s.dreg = true → displayed t.dreg n = some (v % 10 ^ n))

/-- R86, R234: after INIT N has run the control registers hold decode mode 255, display test 0, shutdown 1, scan limit N - 1 and
intensity N, and no other register has changed; after INIT N and SHOW v, N from a display to which no frame to a reserved address
has gone, DISPLAYED(N) is v mod 10^N (that such frames count is I2, log entry 17). -/
def Obligations.InitPreparesTheDisplay : Prop :=
  (∀ (n : Nat) (ops : List Instr) (s : State), 1 ≤ n → n ≤ 8 → s.frPhase = .idle →
    ops.filter (fun i => !isPcOp i) = framesOps (initFrames n) →
    ∃ t, runOps ops s = .next t ∧ displayReady t.dreg n = true ∧ t.dreg.read 9 = 255 ∧ t.dreg.read 15 = 0 ∧
      t.dreg.read 12 = 1 ∧ (t.dreg.read 11).toNat = n - 1 ∧ (t.dreg.read 10).toNat = n ∧
      ∀ k : Byte, k ∉ ([9, 10, 11, 12, 15] : List Byte) →
        t.dreg.read k = s.dreg.read k ∧ t.dreg.written k.toNat = s.dreg.written k.toNat) ∧
  (∀ (v n : Nat) (ops : List Instr) (s : State), 1 ≤ n → n ≤ 8 → s.frPhase = .idle → onlyDocumented s.dreg = true →
    ops.filter (fun i => !isPcOp i) = framesOps (initFrames n ++ showFrames v n) →
    ∃ t, runOps ops s = .next t ∧ displayed t.dreg n = some (v % 10 ^ n))

/-- R82 to R86: each form of a trace line, the pseudo-operations FRAME, TICKS, SHOW and INIT among them, assembles to its OP20 words
with its operands placed in A and D; an operand out of range assembles to nothing. -/
def Obligations.TraceLinesAssembleToTheirWords : Prop :=
  (∀ a d : Nat, a ≤ 255 → d ≤ 255 →
    assembleLine (.send a d) = some [BitVec.ofNat 20 (0x10000 + a * 256 + d)] ∧
    assembleLine (.frame a d) = some [BitVec.ofNat 20 (0x10000 + a * 256 + d), 0xC0000, 0xC0000, 0xC0000, 0xC0000]) ∧
  (∀ a d : Nat, 255 < a ∨ 255 < d → assembleLine (.send a d) = none ∧ assembleLine (.frame a d) = none) ∧
  (∀ v : Nat, assembleLine (.line v) = if v ≤ 1 then some [BitVec.ofNat 20 (0x90000 + v)] else none) ∧
  (∀ n : Nat, assembleLine (.ticks n) = some (List.replicate n 0x80000)) ∧
  (∀ v n : Nat, assembleLine (.showValue v n) =
    if 1 ≤ n ∧ n ≤ 8 then
      some ((List.range n).flatMap fun k =>
        BitVec.ofNat 20 (0x10000 + (k + 1) * 256 + v / 10 ^ k % 10) :: List.replicate 4 0xC0000)
    else none) ∧
  (∀ n : Nat, assembleLine (.init n) =
    if 1 ≤ n ∧ n ≤ 8 then
      some ([0x109FF, 0x10F00, 0x10C01, BitVec.ofNat 20 (0x10B00 + (n - 1)), BitVec.ofNat 20 (0x10A00 + n)].flatMap fun w =>
        w :: List.replicate 4 0xC0000)
    else none) ∧
  assembleLine .rdHpc = some [0x20000] ∧ assembleLine .rdCur = some [0x30000] ∧ assembleLine .take = some [0x40000] ∧
  assembleLine .tick = some [0x80000] ∧ assembleLine .ovfSvc = some [0xA0000] ∧ assembleLine .edgeSvc = some [0xB0000] ∧
  assembleLine .frStep = some [0xC0000] ∧ assembleLine .reset = some [0xF0000]

/-- R79, R81: a trace of the words of block operations makes the machine's steps run exactly these operations, in order, and leaves
the scheduler's further choices as they were That a trace is loaded as
the schedule is log entry 5. -/
def Obligations.TraceRunsItsOperationsInOrder : Prop :=
  ∀ (ops : List Instr) (s : State), (∀ i ∈ ops, isBlockOp i = true) →
    steps ops.length (withTrace (opWords ops) s) = runOps ops s

/-- R51, R106: a byte goes on the wire as its eight bits, the most significant first, and nothing else of the transcript carries a
bit. -/
def Obligations.BitsGoMostSignificantFirst : Prop :=
  (∀ (b : Byte) (k : Nat), k < 8 → (bitsOfByte Config.serBitOrder b)[k]? = some (b.getLsbD (7 - k))) ∧
  (∀ (b : Byte), (bitsOfByte Config.serBitOrder b).length = 8) ∧
  (∀ (s : State) (a d : Byte), serialBits { s with wire := s.wire ++ [.csFall, .byte a, .byte d, .csRise] } =
    serialBits s ++ bitsOfByte .msbFirst a ++ bitsOfByte .msbFirst d)

/-- R26, R53: the timer's halves are TMR[15:8] and TMR[7:0], and the pair is the timer. -/
def Obligations.TimerPairIsTheTimer : Prop :=
  ∀ t : Half, tmrPair (tmrHigh t) (tmrLow t) = t ∧ (tmrHigh t).toNat = t.toNat / 256 ∧ (tmrLow t).toNat = t.toNat % 256
end

