-- ==== Sys2Proof/Tests/Slice0.lean ====
section
/-! SUPPORT. The model's own tests. Expected results come from 95_test_vectors.md or are worked out from the rules by hand; the
vector's id stands in the comment. The witness_ theorems show inputs that meet the hypotheses of the statements. -/

namespace Sys2Proof.Tests

open Sys2Proof Sys2Proof.Machine

-- Decoding (95_test_vectors.md 2.1, written out from R71 and R72: OP : A : D).
theorem test_decode_send : decodeOp (0x1#4 ++ 0x09#8 ++ 0xFF#8) = .ok (.send 9 255) := by rfl
theorem test_decode_send_fields_in_order : decodeOp 0x1ABCD = .ok (.send 0xAB 0xCD) := by rfl
theorem test_decode_rdHpc : decodeOp 0x20000 = .ok .rdHpc := by rfl
theorem test_decode_rdCur : decodeOp 0x30000 = .ok .rdCur := by rfl
theorem test_decode_take : decodeOp 0x40000 = .ok .take := by rfl
theorem test_decode_tick : decodeOp 0x80000 = .ok .tick := by rfl
theorem test_decode_line_low : decodeOp 0x90000 = .ok (.line false) := by rfl
theorem test_decode_line_high : decodeOp 0x90001 = .ok (.line true) := by rfl
theorem test_decode_ovfSvc : decodeOp 0xA0000 = .ok .ovfSvc := by rfl
theorem test_decode_edgeSvc : decodeOp 0xB0000 = .ok .edgeSvc := by rfl
theorem test_decode_frStep : decodeOp 0xC0000 = .ok .frStep := by rfl
theorem test_decode_reset : decodeOp 0xF0000 = .ok .reset := by rfl
theorem test_decode_digits :
    decodeFrame 0x0102 = some (.digit1 2) ∧ decodeFrame 0x0205 = some (.digit2 5) ∧ decodeFrame 0x0301 = some (.digit3 1) ∧
    decodeFrame 0x0401 = some (.digit4 1) ∧ decodeFrame 0x0500 = some (.digit5 0) ∧ decodeFrame 0x0600 = some (.digit6 0) ∧
    decodeFrame 0x0709 = some (.digit7 9) ∧ decodeFrame 0x08FF = some (.digit8 255) := by decide
theorem test_decode_controls :
    decodeFrame 0x09FF = some (.decodeMode 255) ∧ decodeFrame 0x0A06 = some (.intensity 6) ∧
    decodeFrame 0x0B05 = some (.scanLimit 5) ∧ decodeFrame 0x0C01 = some (.shutdown 1) ∧
    decodeFrame 0x0F00 = some (.displayTest 0) := by decide
theorem test_decode_reserved_frames :
    decodeFrame 0x0007 = none ∧ decodeFrame 0x0D05 = none ∧ decodeFrame 0x0E00 = none ∧ decodeFrame 0x1001 = none ∧
    decodeFrame 0xFFFF = none := by decide
theorem test_encode_words :
    encode (.send 9 255) = .op20 0x109FF ∧ encode (.line true) = .op20 0x90001 ∧ encode .reset = .op20 0xF0000 ∧
    encode (.decodeMode 255) = .frame16 0x09FF := by decide

-- WellFormed: an ill-formed term for each check, which the check refuses (95_test_vectors.md 2.1; R77; R82 to R86).
theorem test_check_refuses_reserved_ops :
    [0x0, 0x5, 0x6, 0x7, 0xD, 0xE].all (fun op => (OpFields.mk op 0 0).check == some .reservedOp) = true := by decide
theorem test_check_reserved_op_named_first : (fieldsOf 0x5ABCD).check = some .reservedOp := by decide
theorem test_check_refuses_nonzero_d : (fieldsOf 0x20001).check = some .nonzeroReservedField := by decide
theorem test_check_refuses_nonzero_a : (fieldsOf 0x40100).check = some .nonzeroReservedField := by decide
theorem test_check_refuses_line_high_bits :
    (fieldsOf 0x90002).check = some .nonzeroReservedField ∧ (fieldsOf 0x90101).check = some .nonzeroReservedField := by decide
theorem test_check_accepts_all_of_send : (fieldsOf 0x1FFFF).check = none ∧ (fieldsOf 0x10000).check = none := by decide
theorem test_addrReserved_ends :
    addrReserved 0 = true ∧ addrReserved 13 = true ∧ addrReserved 14 = true ∧ addrReserved 16 = true ∧ addrReserved 255 = true ∧
    addrReserved 1 = false ∧ addrReserved 12 = false ∧ addrReserved 15 = false := by decide
theorem test_line_check_refuses_operands :
    (Line.send 256 0).check = false ∧ (Line.frame 0 256).check = false ∧ (Line.line 2).check = false ∧
    (Line.showValue 5 0).check = false ∧ (Line.showValue 5 9).check = false ∧ (Line.init 0).check = false ∧
    (Line.init 9).check = false := by decide

/-- A machine with the input high, otherwise as after reset. -/
def high : State := { State.reset with line := true }

-- SEND and FR_STEP (VF1 to VF7).
theorem test_send_starts : (after (.send 0x0C 0x01) State.reset).frPhase = .addr ∧
    (after (.send 0x0C 0x01) State.reset).wire = [.csFall] ∧ (after (.send 0x0C 0x01) State.reset).frData = 1 := by decide
theorem test_send_holds_in_gap :
    after (.send 1 2) { State.reset with frPhase := .gap, csN := false, tc := true } =
      { State.reset with frPhase := .gap, csN := false, tc := true, held := [(1, 2)] } := by decide
theorem test_frStep_sends_address_byte :
    after .frStep { State.reset with frPhase := .addr, csN := false, frAddr := 0x0C, wire := [.csFall] } =
      { State.reset with frPhase := .gap, csN := false, frAddr := 0x0C, tc := true, wire := [.csFall, .byte 0x0C] } := by decide
theorem test_frStep_closes_frame :
    after .frStep { State.reset with
        frPhase := .endPhase, csN := false, tc := true, frAddr := 12, frData := 1, wire := [.csFall, .byte 12, .byte 1] } =
      { State.reset with
        tc := true, frAddr := 12, frData := 1, wire := [.csFall, .byte 12, .byte 1, .csRise], dreg := [(12, 1)] } := by decide

-- TICK (VC2 to VC6).
theorem test_tick_carries : (after .tick { high with tmr := 0x00FF }).tmr = 0x0100 := by decide
theorem test_tick_wraps_high_and_low :
    (after .tick { high with tmr := 0xFFFF }).ovfPend = true ∧ (after .tick { high with tmr := 0xFFFF }).tmr = 0 ∧
    (after .tick { State.reset with tmr := 0xFFFF }).ovfPend = false ∧
    (tickWith false { State.reset with tmr := 0xFFFF }).ovfPend = true := by decide

-- LINE (VC7 to VC9).
theorem test_line_rises : after (.line true) State.reset = { State.reset with line := true, edgePend := true } := by decide
theorem test_line_unchanged : after (.line true) high = high := by decide

-- OVF_SVC (VC10, VC12).
theorem test_ovfSvc_no_step : after .ovfSvc { high with ovc := 7 } = { high with ovc := 7 } := by decide
theorem test_ovfSvc_wraps :
    after .ovfSvc { high with ovfPend := true, ovc := 0xFFFF } = { high with ovfPend := false, ovc := 0 } := by decide

-- EDGE_SVC (VC15, VC16, VC17).
theorem test_edgeSvc_largest :
    (after .edgeSvc { high with edgePend := true, tmr := 0xFFFF, ovc := 0xFFFF }).cur = 0xFFFFFFFF := by decide
theorem test_edgeSvc_wraps_and_leaves_ovfPend :
    after .edgeSvc { high with edgePend := true, ovfPend := true, tmr := 2, hps := 0xFFFFFFFF, hpc := 0xFFFF } =
      { high with ovfPend := true, cur := 2, hps := 1, hpc := 0 } := by decide

-- TAKE, RD_HPC, RD_CUR (VC21, VC22, VC24).
theorem test_take :
    after .take { high with hps := 10, hpc := 2, edgePend := true, cur := 5 } =
      { high with edgePend := true, cur := 5, resp := [.snapshot 10 2] } := by decide
theorem test_rdHpc : (after .rdHpc { high with hpc := 512 }).resp = [.hpc 512] := by decide
theorem test_rdCur : (after .rdCur { high with cur := 65636 }).resp = [.cur 65636] := by decide

-- RESET (VR3, VR5, VR6).
theorem test_reset_in_gap :
    after .reset { State.reset with
        frPhase := .gap, csN := false, tc := true, frAddr := 1, frData := 7, wire := [.csFall, .byte 1], line0In := [false] } =
      { State.reset with wire := [.csFall, .byte 1, .csRise], draws := 1 } := by decide
theorem test_reset_in_end_and_draw :
    after .reset { State.reset with
        frPhase := .endPhase, csN := false, frAddr := 1, frData := 7, wire := [.csFall, .byte 1, .byte 7], ovfPend := true,
        edgePend := true, ovc := 3, hps := 9, hpc := 1, cur := 4, tmr := 77, dreg := [(1, 9)], line0In := [true] } =
      { high with wire := [.csFall, .byte 1, .byte 7, .csRise], dreg := [(1, 7)], draws := 1 } := by decide

-- Frame commands (VD1 to VD7): the register each one writes.
theorem test_digit_registers :
    (after (.digit1 2) high).dreg = [(1, 2)] ∧ (after (.digit2 3) high).dreg = [(2, 3)] ∧ (after (.digit3 4) high).dreg = [(3, 4)] ∧
    (after (.digit4 5) high).dreg = [(4, 5)] ∧ (after (.digit5 6) high).dreg = [(5, 6)] ∧ (after (.digit6 7) high).dreg = [(6, 7)] ∧
    (after (.digit7 8) high).dreg = [(7, 8)] ∧ (after (.digit8 9) high).dreg = [(8, 9)] := by decide
theorem test_control_registers :
    (after (.decodeMode 255) high).dreg = [(9, 255)] ∧ (after (.intensity 6) high).dreg = [(10, 6)] ∧
    (after (.scanLimit 5) high).dreg = [(11, 5)] ∧ (after (.shutdown 1) high).dreg = [(12, 1)] ∧
    (after (.displayTest 0) high).dreg = [(15, 0)] := by decide

-- Memory: rising addresses, an overwrite in place.
theorem test_memory_write_order :
    Memory.write (Memory.write (Memory.write [] 9 255) 1 3) 9 4 = [(1, 3), (9, 4)] ∧ Memory.written [(1, 3), (9, 4)] 2 = none ∧
    Memory.read [(1, 3), (9, 4)] 9 = 4 := by decide
-- A register that no frame has written holds the byte drawn at power-up (I3).
theorem test_read_unwritten_register : Memory.read [(1, 3), (9, 4)] 2 = Config.freeDreg 2 := rfl

-- DISPLAYED (VD10, VD13, VD14, VD8).
theorem test_displayed :
    displayed [(1, 7), (2, 6), (3, 5), (4, 4), (5, 3), (6, 2), (9, 255), (10, 6), (11, 5), (12, 1), (15, 0)] 6 = some 234567 ∧
    displayed [(1, 2), (2, 4), (3, 0), (4, 0), (5, 0), (6, 0), (7, 0), (8, 0), (9, 255), (10, 6), (11, 5), (12, 1), (15, 0)] 6 =
      some 42 ∧
    displayed [(1, 2), (2, 4), (3, 0), (4, 0), (5, 0), (6, 0), (7, 0), (8, 0), (9, 255), (10, 6), (11, 5), (12, 1), (15, 0)] 8 = none ∧
    displayed [] 1 = none ∧ displayed [(1, 10), (9, 255), (10, 1), (11, 0), (12, 1), (15, 0)] 1 = none := by decide
-- I2 (an intensity other than INIT's, none at all, a frame to a reserved address); VD9 (INIT 6 alone, then FRAME 13, 4).
theorem test_displayed_undefined_by_I2 :
    displayed [(1, 7), (9, 255), (10, 1), (11, 0), (12, 1), (15, 0)] 1 = some 7 ∧
    displayed [(1, 7), (9, 255), (10, 2), (11, 0), (12, 1), (15, 0)] 1 = none ∧
    displayed [(1, 7), (9, 255), (11, 0), (12, 1), (15, 0)] 1 = none ∧
    displayed [(1, 7), (9, 255), (10, 1), (11, 0), (12, 1), (15, 0), (16, 0)] 1 = none ∧
    displayed (Memory.write [(9, 255), (10, 6), (11, 5), (12, 1), (15, 0)] 13 4) 6 =
      displayed [(9, 255), (10, 6), (11, 5), (12, 1), (15, 0)] 6 := by decide

-- Bit order (95_test_vectors.md 2.2).
theorem test_bits_of_09 :
    bitsOfByte .msbFirst 0x09 = [false, false, false, false, true, false, false, true] ∧
    bitsOfByte .lsbFirst 0x09 = [true, false, false, true, false, false, false, false] := by decide

-- Pseudo-operations and the trace syntax (E8, P1; R82).
theorem test_show_42 :
    showFrames 42 8 = [(1, 2), (2, 4), (3, 0), (4, 0), (5, 0), (6, 0), (7, 0), (8, 0)] := by decide
theorem test_init_6 : initFrames 6 = [(9, 255), (15, 0), (12, 1), (11, 5), (10, 6)] := by decide
theorem test_assemble_frame : assembleLine (.frame 1 7) = some [0x10107, 0xC0000, 0xC0000, 0xC0000, 0xC0000] := by decide
theorem test_parse_send :
    parseLine ['S', 'E', 'N', 'D', ' ', '0', 'x', '0', 'C', ',', ' ', '1', ' ', ';', 'x'] = some [.send 12 1] := by decide
theorem test_parse_refuses :
    parseLine ['S', 'E', 'N', 'D', ' ', '2', '5', '6', ',', ' ', '1'] = none ∧ parseLine ['T', 'O', 'C', 'K'] = none ∧
    parseLine ['L', 'I', 'N', 'E', ' ', '2'] = none ∧ parseLine [';', 'T', 'I', 'C', 'K'] = some [] := by decide

-- A step: a scheduled word, a refused word, HOST's turn, a delivered frame.
theorem test_step_runs_word : step (State.reset.withFetchWord 24 0x90001) = .next { State.reset with line := true, edgePend := true } := by rfl
theorem test_step_refuses :
    step { State.reset with schedule := [.op 0x5ABCD] } = .refused .reservedOp ∧
    step { State.reset with schedule := [.op 0x20001] } = .refused .nonzeroReservedField := ⟨rfl, rfl⟩
theorem test_step_retries_held :
    step { State.reset with schedule := [.host], held := [(1, 2), (3, 4)] } =
      .next { State.reset with held := [(3, 4)], frPhase := .addr, csN := false, frAddr := 1, frData := 2, wire := [.csFall] } := by rfl
theorem test_step_delivers_frame :
    step (State.reset.withFetchWord 16 0x0C01) =
      .next { State.reset with
        tc := true, frAddr := 12, frData := 1, wire := [.csFall, .byte 12, .byte 1, .csRise], dreg := [(12, 1)] } := by rfl

-- Witnesses: inputs that meet the hypotheses of the statements of Obligations.lean.
theorem witness_ReservedWordsAreRefused :
    ({ State.reset with schedule := [.op 0x0FFFF] } : State).schedule = .op 0x0FFFF :: [] ∧ (0x0FFFF : OpWord).toNat / 65536 = 0x0 ∧
    (0x20001 : OpWord).toNat / 65536 = 0x2 ∧ (0x20001 : OpWord).toNat % 65536 ≠ 0 ∧ (0xC0100 : OpWord).toNat / 65536 = 0xC ∧
    (0xC0100 : OpWord).toNat % 65536 ≠ 0 ∧ (0x90002 : OpWord).toNat / 65536 = 0x9 ∧
    2 ≤ (0x90002 : OpWord).toNat % 65536 ∧ (0x90001 : OpWord).toNat % 65536 < 2 := by decide
theorem witness_FrameWordsDecodeByTheirAddress :
    (0x01FF : FrameWord).toNat / 256 = 1 ∧ (0x0F00 : FrameWord).toNat / 256 = 15 ∧ (0x1000 : FrameWord).toNat / 256 = 16 ∧
    (0x0DFF : FrameWord).toNat / 256 = 13 := by decide
theorem witness_TableRowsMatchAndExclude :
    decode (.frame16 0x0F00) = some (.displayTest 0) ∧ (Code.op20 0x90001).inRow (rowOf (.line false)) = true ∧
    (Code.op20 0x90001).inRow (rowOf (.line true)) = true := by decide
theorem witness_StepRunsTheScheduledWord :
    ({ State.reset with schedule := [.op 0x1FFFF] } : State).schedule = .op 0x1FFFF :: [] ∧ decodeOp 0x1FFFF = .ok (.send 255 255) :=
  ⟨rfl, rfl⟩
theorem witness_StepRunsTheFreeChoice : State.reset.schedule = [] := by decide
theorem witness_PlacedWordIsRunNext :
    decodeTableWord 24 0xF0000 = some .reset ∧ decodeTableWord 16 0x0FFF = some (.displayTest 255) := by decide
theorem witness_SendStartsAFrameOrHolds : State.reset.frPhase = .idle ∧ (after (.send 0 0) State.reset).frPhase ≠ .idle := by decide
theorem witness_HeldSendIsAcceptedInIdle :
    ({ State.reset with schedule := [.host], held := [(0, 255)] } : State).held = (0, 255) :: [] ∧
    ({ State.reset with schedule := [.host], held := [(0, 255)] } : State).frPhase = .idle ∧
    ({ State.reset with schedule := [.host], held := [(0, 255)], frPhase := .endPhase } : State).frPhase ≠ .idle := by decide
theorem witness_FrStepAdvancesTheFrame :
    State.reset.frPhase = .idle ∧ (after (.send 1 2) State.reset).frPhase = .addr ∧
    (after .frStep (after (.send 1 2) State.reset)).frPhase = .gap ∧
    (after .frStep (after .frStep (after (.send 1 2) State.reset))).frPhase = .data ∧
    (after .frStep (after .frStep (after .frStep (after (.send 1 2) State.reset)))).frPhase = .endPhase := by decide
theorem witness_ReceiverWritesAtCsRise :
    ({ State.reset with wire := [.csRise, .csFall, .byte 255, .byte 0] } : State).wire =
      [.csRise] ++ .csFall :: [255, 0].map WireEvent.byte ∧
    ({ State.reset with wire := [.csFall, .byte 1] } : State).wire = [] ++ .csFall :: [1].map WireEvent.byte := by decide
theorem witness_DigitCommandsWriteTheirRegister :
    (Instr.digit8 9, (8 : Byte)) ∈ [(Instr.digit1 9, (1 : Byte)), (.digit2 9, 2), (.digit3 9, 3), (.digit4 9, 4), (.digit5 9, 5),
      (.digit6 9, 6), (.digit7 9, 7), (.digit8 9, 8)] ∧ State.reset.frPhase = .idle ∧
    ([.send 8 9, .tick, .frStep, .rdHpc, .frStep, .frStep, .line true, .frStep] : List Instr).filter (fun i => !isPcOp i) =
      frameOps 8 9 := by decide
theorem witness_ControlCommandsWriteTheirRegister :
    (Instr.displayTest 0, (15 : Byte)) ∈ [(Instr.decodeMode 0, (9 : Byte)), (.intensity 0, 10), (.scanLimit 0, 11), (.shutdown 0, 12),
      (.displayTest 0, 15)] ∧ State.reset.frPhase = .idle ∧
    ([.take, .send 15 0, .frStep, .frStep, .frStep, .frStep] : List Instr).filter (fun i => !isPcOp i) = frameOps 15 0 := by decide
theorem witness_ClosedFrameRunsItsCommand :
    ({ State.reset with frPhase := .endPhase, wire := [.csFall, .byte 1, .byte 2] } : State).wire =
      [] ++ [.csFall, .byte 1, .byte 2] ∧ decodeFrame (frameOf 1 2) = some (.digit1 2) := by decide
theorem witness_TickAdvancesTheTimer :
    ({ high with tmr := 0xFFFF } : State).tmr = 0xFFFF ∧ high.line = true ∧ State.reset.line = false ∧
    ({ high with tmr := 0xFFFE } : State).tmr ≠ 0xFFFF := by decide
theorem witness_LineRecordsAnEdgeOnAChange : true = high.line ∧ false ≠ high.line := by decide
theorem witness_OvfSvcCountsOneWrap :
    State.reset.ovfPend = false ∧ ({ high with ovfPend := true, ovc := 0xFFFF } : State).ovfPend = true := by decide
theorem witness_EdgeSvcLatchesTheDuration :
    State.reset.edgePend = false ∧ ({ high with edgePend := true, tmr := 0xFFFF, ovc := 0xFFFF } : State).edgePend = true := by decide
theorem witness_TakeSwapsTheAccumulators :
    high.hps = 0 ∧ high.hpc = 0 ∧ Instr.take ∉ [Instr.tick, .line false, .edgeSvc] ∧ Instr.reset ∉ [Instr.tick, .line false, .edgeSvc] ∧
    latchedBy [.tick, .line false, .edgeSvc] high = [1] := by decide
theorem witness_RdHpcReturnsThePulseCount :
    ∃ t u, ({ high with edgePend := true, hpc := 0xFFFF } : State).edgePend = true ∧
      exec .edgeSvc { high with edgePend := true, hpc := 0xFFFF } = .next t ∧ exec .rdHpc t = .next u := ⟨_, _, rfl, rfl, rfl⟩
theorem witness_RdCurReturnsTheLatch :
    Instr.edgeSvc ∉ [Instr.tick, .line true] ∧ ∃ t, exec .take high = .next t := ⟨by decide, _, rfl⟩
theorem witness_ResetGivesTheResetColumn :
    high.csN = true ∧ high.wire = [] ∧ high.resp = [] ∧ high.dreg = [] ∧
    (after (.send 1 2) high).csN = false := by decide
theorem witness_ResetTakesItsDraw :
    ({ high with line0In := [true, false] } : State).line0In = true :: [false] ∧ high.line0In = [] := by decide
theorem witness_ResetCutsOrCompletesTheFrame :
    Inv State.reset ∧ Inv (after (.send 1 2) State.reset) ∧ (after (.send 1 2) State.reset).frPhase = .addr ∧
    Inv (State.reset.withFetchWord 16 0x0102) ∧ (State.reset.withFetchWord 16 0x0102).frPhase = .endPhase := by
  refine ⟨?_, ?_, rfl, ?_, rfl⟩ <;> exact ⟨rfl, rfl, rfl, rfl⟩
theorem witness_EveryStepKeepsTheFramerInvariant :
    ∃ s t, Inv s ∧ s = State.reset.withFetchWord 16 0x0102 ∧ step s = .next t :=
  ⟨_, _, ⟨rfl, rfl, rfl, rfl⟩, rfl, rfl⟩
theorem witness_EveryStepKeepsTheMemoryForm :
    ∃ s t, s.dreg.wf = true ∧ s = ({ State.reset with dreg := [(255, 1)] } : State).withFetchWord 16 0x0102 ∧ step s = .next t :=
  ⟨_, _, rfl, rfl, rfl⟩
theorem witness_FramesNeverOverlap :
    ∃ s, Inv s ∧ s.wire = [] ++ .csFall :: ([.byte 1, .byte 2, .csRise] ++ .csFall :: []) :=
  ⟨{ State.reset with frPhase := .addr, csN := false, dreg := [(1, 2)], wire := [.csFall, .byte 1, .byte 2, .csRise, .csFall] },
    ⟨rfl, rfl, rfl, rfl⟩, rfl⟩
theorem witness_OnlyThreeOperationsTouchTheWire : ∃ t, exec .frStep (after (.send 1 2) State.reset) = .next t := ⟨_, rfl⟩
theorem witness_PcElementsHaveTheirWriters : ∃ t, exec .tick high = .next t ∧ t.tmr ≠ high.tmr := ⟨_, rfl, by decide⟩
theorem witness_FrElementsHaveTheirWriters :
    (∃ t, exec (.send 1 2) high = .next t ∧ t.frPhase ≠ high.frPhase ∧ t.csN ≠ high.csN ∧ t.frAddr ≠ high.frAddr) ∧
    (∃ t, exec .frStep (after (.send 1 2) high) = .next t ∧ t.tc ≠ (after (.send 1 2) high).tc) ∧
    ∃ t, exec .frStep (State.reset.withFetchWord 16 0x0102) = .next t ∧ t.dreg ≠ (State.reset.withFetchWord 16 0x0102).dreg :=
  ⟨⟨_, rfl, by decide, by decide, by decide⟩, ⟨_, rfl, by decide⟩, _, rfl, by decide⟩
theorem witness_OnlyHostReadsRespond : ∃ t, exec .take high = .next t ∧ t.resp ≠ high.resp := ⟨_, rfl, by decide⟩
theorem witness_FramerAndCaptureAreIndependent :
    isFrOp (.send 1 2) = true ∧ isPcOp .tick = true ∧ frPart high = frPart State.reset ∧
    pcPart high = pcPart { high with frAddr := 1 } := ⟨rfl, rfl, rfl, rfl⟩
theorem witness_HostSeesOnlyThreeRegisters :
    hostMayIssue .take = true ∧ high.hpc = ({ high with tmr := 5 } : State).hpc ∧ high.cur = ({ high with tmr := 5 } : State).cur ∧
    high.hps = ({ high with tmr := 5 } : State).hps := by decide
theorem witness_DisabledOperationsChangeNothing :
    isBlockOp (.send 1 2) = true ∧ enabled (.send 1 2) (after (.send 1 2) high) = false ∧ enabled .frStep high = false := by decide
theorem witness_FrameLawUnderInterleaving :
    State.reset.frPhase = .idle ∧ (∀ i ∈ ([.frStep, .tick, .send 3 4, .frStep, .take, .frStep] : List Instr), isBlockOp i = true ∧ i ≠ .reset) ∧
    frStepCount [.frStep, .tick, .send 3 4, .frStep, .take, .frStep] = 3 := by decide
theorem witness_FrameSequenceLaw :
    State.reset.frPhase = .idle ∧
    ([.send 1 2, .tick, .frStep, .frStep, .frStep, .frStep, .take, .send 1 3, .frStep, .frStep, .frStep, .frStep] : List Instr).filter
      (fun i => !isPcOp i) = framesOps [(1, 2), (1, 3)] := by decide
theorem witness_TransferCompleteInIdle :
    (∃ t, runOps [.send 1 2, .frStep, .frStep, .frStep, .frStep] State.reset = .next t ∧ t.frPhase = .idle) ∧
    (∀ i ∈ ([.send 1 2, .frStep, .frStep, .frStep, .frStep] : List Instr), isBlockOp i = true ∧ i ≠ .reset) ∧
    ∃ t, exec .reset State.reset = .next t := ⟨⟨_, rfl, rfl⟩, by decide, _, rfl⟩
theorem witness_WaitsFindTransferComplete :
    ∃ s, Inv s ∧ s.frPhase = .gap :=
  ⟨{ State.reset with frPhase := .gap, csN := false, tc := true, frAddr := 1, wire := [.csFall, .byte 1] }, ⟨rfl, rfl, rfl, rfl⟩, rfl⟩
theorem witness_FairFramerReachesIdle : 
    WeaklyFair .frStep (fun n => if n = 0 then .send 1 2 else .frStep) State.reset ∧
    (trajectory (fun n => if n = 0 then .send 1 2 else .frStep) State.reset 1).frPhase = .addr :=
  ⟨fun n => ⟨n + 1, Nat.le_succ n, .inl rfl⟩, rfl⟩
theorem witness_FairServicesClearTheirFlags :
    WeaklyFair .ovfSvc (fun _ => .ovfSvc) State.reset ∧ WeaklyFair .edgeSvc (fun _ => .edgeSvc) State.reset :=
  ⟨fun n => ⟨n, Nat.le_refl n, .inl rfl⟩, fun n => ⟨n, Nat.le_refl n, .inl rfl⟩⟩
theorem witness_CurMeasuresTheTicksBetweenEdges :
    ∃ s s' t, s.edgePend = true ∧ s.ovfPend = false ∧ exec .edgeSvc s = .next s' ∧ Instr.edgeSvc ∉ [Instr.tick, .tick, .line false] ∧
      Instr.reset ∉ [Instr.tick, .tick, .line false] ∧ tickCount [.tick, .tick, .line false] < 2 ^ 32 ∧
      WrapsCounted [.tick, .tick, .line false] s' ∧ runOps [.tick, .tick, .line false] s' = .next t ∧ t.ovfPend = false ∧
      t.edgePend = true :=
  ⟨{ high with edgePend := true, tmr := 9 }, _, _, rfl, rfl, rfl, by decide, by decide, by decide,
    ⟨fun _ h => absurd h (by decide), fun _ h => absurd h (by decide), fun _ h => absurd h (by decide), trivial⟩, rfl, rfl, rfl⟩
theorem witness_GatedWrapsAreNotCounted :
    State.reset.tmr = 0 ∧ State.reset.ovc = 0 ∧ State.reset.line = false ∧ State.reset.edgePend = false := by decide
theorem witness_CoincidentOverflowAndEdge :
    ({ high with ovfPend := true, edgePend := true, ovc := 0xFFFF } : State).ovfPend = true ∧
    ({ high with ovfPend := true, edgePend := true, ovc := 0xFFFF } : State).edgePend = true := by decide
theorem witness_CoincidenceKeepsTheSum :
    ({ high with ovfPend := true, edgePend := true } : State).ovfPend = true ∧
    ({ high with ovfPend := true, edgePend := true } : State).edgePend = true ∧
    ∀ i ∈ ([.tick, .ovfSvc, .tick] : List Instr), i = .tick ∨ i = .ovfSvc := by decide
theorem witness_TakeAndEdgeInEitherOrder : ({ high with edgePend := true } : State).edgePend = true := by decide
theorem witness_PendingFlagsCoalesce :
    ({ high with ovfPend := true, edgePend := true, tmr := 0xFFFF } : State).ovfPend = true ∧
    ({ high with ovfPend := true, edgePend := true, tmr := 0xFFFF } : State).edgePend = true ∧
    ({ high with ovfPend := true, edgePend := true, tmr := 0xFFFF } : State).tmr = 0xFFFF := by decide
theorem witness_SideEffectsOfRepeating :
    Instr.edgeSvc ∉ [Instr.rdHpc, .tick] ∧ (∃ t, runOps [.take, .rdHpc, .tick] { high with hps := 3 } = .next t) ∧
    high.frPhase = .idle := ⟨by decide, ⟨_, rfl⟩, rfl⟩
theorem witness_ReservedAddressesAreSentAndStored :
    (0x10 : Nat) ≤ (0x10 : Byte).toNat ∧ (0x10 : Nat) ≤ (255 : Byte).toNat ∧ high.frPhase = .idle := by decide
theorem witness_DisplayedIsTheDigitsValue :
    displayed [(1, 9), (9, 255), (10, 1), (11, 0), (12, 1), (15, 0)] 1 = some 9 ∧
    displayed [(1, 9), (2, 0), (3, 0), (4, 0), (5, 0), (6, 0), (7, 0), (8, 1), (9, 255), (10, 8), (11, 7), (12, 1), (15, 0)] 8 =
      some 10000009 ∧
    (1 : Nat) ≤ 8 := by decide
theorem witness_ShowWritesTheDecimalDigits :
    (([.tick] ++ framesOps (showFrames 1152 6) ++ [.take] : List Instr).filter (fun i => !isPcOp i) = framesOps (showFrames 1152 6)) ∧
    displayReady [(9, 255), (10, 6), (11, 5), (12, 1), (15, 0)] 6 = true ∧
    onlyDocumented [(9, 255), (10, 6), (11, 5), (12, 1), (15, 0)] = true := by decide
theorem witness_InitPreparesTheDisplay :
    ([.tick] ++ framesOps (initFrames 8) : List Instr).filter (fun i => !isPcOp i) = framesOps (initFrames 8) ∧
    State.reset.frPhase = .idle ∧ onlyDocumented State.reset.dreg = true ∧
    (framesOps (initFrames 1 ++ showFrames 42 1) ++ [.take] : List Instr).filter (fun i => !isPcOp i) =
      framesOps (initFrames 1 ++ showFrames 42 1) := by decide
theorem witness_TraceLinesAssembleToTheirWords : 
    (255 : Nat) ≤ 255 ∧ (255 : Nat) < 256 ∧ (1 : Nat) ≤ 1 ∧ ¬ (2 : Nat) ≤ 1 ∧ assembleLine (.line 2) = none ∧
    assembleLine (.showValue 7 0) = none ∧ assembleLine (.showValue 7 9) = none ∧ assembleLine (.init 0) = none ∧
    assembleLine (.init 9) = none ∧
    assembleLine (.showValue 42 1) = some [0x10102, 0xC0000, 0xC0000, 0xC0000, 0xC0000] := by decide
theorem witness_TraceRunsItsOperationsInOrder :
    ∀ i ∈ ([.send 1 2, .frStep, .reset] : List Instr), isBlockOp i = true := by decide
theorem witness_BitsGoMostSignificantFirst : (7 : Nat) < 8 := by decide

end Sys2Proof.Tests
end

