-- ==== Sys2Proof/Proofs/State.lean ====
section
/-! PROOFS. The statements about the state's elements (10_state.md): the framer's invariant, the writers of the framer's elements,
the responses to HOST, TC in IDLE and the timer pair. What one operation does to the framer (`FramerStep`) and to RESP
(`responsesTo`) is said once here; the statements are read off that. -/

namespace Sys2Proof.Machine

/-! ### Every operation answers a next state -/

/-- No operation faults or is refused (R200). -/
theorem exec_eq_next_after (i : Instr) (s : State) : exec i s = .next (after i s) := by
  cases i <;> rfl

theorem exec_eq_next_iff {i : Instr} {s t : State} : exec i s = .next t ↔ after i s = t := by
  rw [exec_eq_next_after, Host.Outcome.next.injEq]

@[simp] theorem runOps_nil (s : State) : runOps [] s = .next s := rfl

@[simp] theorem runOps_cons (i : Instr) (is : List Instr) (s : State) : runOps (i :: is) s = runOps is (after i s) := by
  simp only [runOps, exec_eq_next_after]

/-- A word that decodes spells an operation of the block: no turn of the scheduler is a frame command (R8, R72). -/
theorem isBlockOp_of_decodeOp {w : OpWord} {i : Instr} (h : decodeOp w = .ok i) : isBlockOp i = true := by
  unfold decodeOp at h
  dsimp only at h
  split at h
  next => cases h
  next =>
    repeat' split at h
    all_goals cases h
    all_goals rfl

/-! ### What one operation does to the framer, the wire and the display registers -/

/-- t has the framer, the wire and the display registers of s. -/
structure SameFramer (s t : State) : Prop where
  frPhase : t.frPhase = s.frPhase
  csN : t.csN = s.csN
  tc : t.tc = s.tc
  frAddr : t.frAddr = s.frAddr
  frData : t.frData = s.frData
  wire : t.wire = s.wire
  dreg : t.dreg = s.dreg

/-- All an operation can do to the framer, the wire and the display registers: nothing, start a frame out of IDLE, advance it,
reset the block, or write one register, which only a frame command does. -/
inductive FramerStep (s : State) : Instr → State → Prop where
  | keep {i : Instr} {t : State} (same : SameFramer s t) : FramerStep s i t
  | send (a d : Byte) (idle : s.frPhase = .idle) : FramerStep s (.send a d) (startFrame a d s)
  | frStep : FramerStep s .frStep (stepFrame s)
  | reset (l : Bool) : FramerStep s .reset (useDraw (resetWith l s))
  | command {i : Instr} (a d : Byte) (receiver : isBlockOp i = false) : FramerStep s i (frameWrite a d s)

theorem frBusy_eq_false_iff (s : State) : frBusy s = false ↔ s.frPhase = .idle := by
  simp [frBusy]

/-- A SEND starts a frame in IDLE, and holds otherwise (R100). -/
theorem framerStep_send (a d : Byte) (s : State) : FramerStep s (.send a d) (after (.send a d) s) := by
  rw [after_send]
  split
  next => exact .keep ⟨rfl, rfl, rfl, rfl, rfl, rfl, rfl⟩
  next h => exact .send a d ((frBusy_eq_false_iff s).mp (Bool.eq_false_iff.mpr h))

/-- An operation of PC leaves the framer's side of the state alone (R109). -/
theorem sameFramer_of_isPcOp {i : Instr} (s : State) (h : isPcOp i = true) : SameFramer s (after i s) := by
  cases i with
  | rdHpc | rdCur | take | tick | line => exact ⟨rfl, rfl, rfl, rfl, rfl, rfl, rfl⟩
  | ovfSvc | edgeSvc => simp only [after_ovfSvc, after_edgeSvc]; split <;> exact ⟨rfl, rfl, rfl, rfl, rfl, rfl, rfl⟩
  | _ => cases h

theorem framerStep_of_exec {i : Instr} {s t : State} (h : exec i s = .next t) : FramerStep s i t := by
  obtain rfl := exec_eq_next_iff.mp h
  cases i with
  | send a d => exact framerStep_send a d s
  | frStep => exact .frStep
  | reset => exact .reset _
  | rdHpc | rdCur | take | tick | line | ovfSvc | edgeSvc => exact .keep (sameFramer_of_isPcOp s rfl)
  | _ => exact .command _ _ rfl

/-! ### The transcript, one event at a time -/

theorem linkFrom_snoc {l l' : Link} {w : List WireEvent} (e : WireEvent) (h : linkFrom l w = some l') :
    linkFrom l (w ++ [e]) = linkStep l' e := by
  induction w generalizing l with
  | nil =>
    obtain rfl : l = l' := Option.some.inj h
    simp only [List.nil_append, linkFrom]
    split <;> simp [*]
  | cons x xs ih =>
    simp only [List.cons_append, linkFrom] at h ⊢
    split at h
    next => exact ih h
    next => cases h

theorem replayFrom_append (rx : List Byte) (m : Memory) (w v : List WireEvent) :
    replayFrom rx m (w ++ v) = replayFrom (rxFrom rx w) (replayFrom rx m w) v := by
  induction w generalizing rx m with
  | nil => rfl
  | cons e es ih => cases e <;> exact ih _ _

@[simp] theorem emit_wire (e : WireEvent) (s : State) : (emit e s).wire = s.wire ++ [e] := by
  rw [emit_eq]

/-- emit keeps the display registers what the receiver's rule makes of the transcript (R130, R34). -/
theorem emit_dreg_replay (e : WireEvent) {s : State} (h : s.dreg = replayFrom [] [] s.wire) :
    (emit e s).dreg = replayFrom [] [] (s.wire ++ [e]) := by
  rw [replayFrom_append, ← h]
  cases e with
  | csFall => rfl
  | byte b => rfl
  | csRise => exact emit_csRise_dreg s

/-! ### The framer's invariant -/

/-- Inv speaks of the framer, the wire and the display registers only. -/
theorem Inv.of_sameFramer {s t : State} (same : SameFramer s t) (h : Inv s) : Inv t := by
  obtain ⟨hp, hc, ht, ha, hd, hw, hm⟩ := same
  simpa only [Inv, csOk, frBusy, tcOk, linkOfPhase, hp, hc, ht, ha, hd, hw, hm] using h

/-- Without an event on the wire Inv is kept when the new phase belongs to the same link. -/
theorem Inv.of_quiet {s t : State} (h : Inv s) (hcs : csOk t = true) (htc : tcOk t = true)
    (hlink : linkOfPhase t = linkOfPhase s) (hwire : t.wire = s.wire) (hdreg : t.dreg = s.dreg) : Inv t := by
  obtain ⟨-, -, hl, hm⟩ := h
  exact ⟨hcs, htc, by rw [hwire, hlink, hl], by rw [hwire, hdreg, hm]⟩

/-- With one event on the wire Inv is kept when the event takes the old phase's link to the new phase's. -/
theorem Inv.of_emit {s t : State} {e : WireEvent} (h : Inv s) (hcs : csOk t = true) (htc : tcOk t = true)
    (hlink : linkStep (linkOfPhase s) e = some (linkOfPhase t)) (hwire : t.wire = s.wire ++ [e])
    (hdreg : t.dreg = (emit e s).dreg) : Inv t := by
  obtain ⟨-, -, hl, hm⟩ := h
  exact ⟨hcs, htc, by rw [hwire, linkFrom_snoc e hl, hlink], by rw [hwire, hdreg, emit_dreg_replay e hm]⟩

theorem startFrame_inv (a d : Byte) {s : State} (idle : s.frPhase = .idle) (h : Inv s) : Inv (startFrame a d s) :=
  h.of_emit (e := .csFall) rfl rfl (by simp only [linkOfPhase, idle]; rfl) rfl rfl

theorem stepFrame_inv {s : State} (h : Inv s) : Inv (stepFrame s) := by
  rcases stepFrame_cases s with ⟨-, e⟩ | ⟨p, e⟩ | ⟨p, e⟩ | ⟨p, e⟩ | ⟨p, e⟩ <;> rw [e]
  case inl => exact h
  all_goals
    have hcs := h.1
    simp only [csOk, frBusy, p] at hcs
  · exact h.of_emit (e := .byte s.frAddr) hcs rfl (by simp only [linkOfPhase, p]; rfl) rfl rfl
  · exact h.of_quiet hcs rfl (by simp only [linkOfPhase, p]) rfl rfl
  · exact h.of_emit (e := .byte s.frData) hcs rfl (by simp only [linkOfPhase, p]; rfl) rfl rfl
  · exact h.of_emit (e := .csRise) rfl rfl (by simp only [linkOfPhase, p]; rfl) rfl rfl

theorem closeFrame_of_released {s : State} (h : s.csN = true) : closeFrame s = s := by
  simp [closeFrame, h]

theorem closeFrame_of_asserted {s : State} (h : s.csN = false) : closeFrame s = emit .csRise s := by
  simp [closeFrame, h]

section
variable (l : Bool) (s : State)
@[simp] theorem resetWith_frPhase : (resetWith l s).frPhase = .idle := rfl
@[simp] theorem resetWith_csN : (resetWith l s).csN = true := rfl
@[simp] theorem resetWith_tc : (resetWith l s).tc = false := rfl
@[simp] theorem resetWith_frAddr : (resetWith l s).frAddr = 0 := rfl
@[simp] theorem resetWith_frData : (resetWith l s).frData = 0 := rfl
@[simp] theorem resetWith_wire : (resetWith l s).wire = (closeFrame s).wire := rfl
@[simp] theorem resetWith_dreg : (resetWith l s).dreg = (closeFrame s).dreg := rfl
@[simp] theorem resetWith_resp : (resetWith l s).resp = s.resp := by rw [resetWith_eq]
end

/-- R41, read as an equivalence: chip-select is released exactly in IDLE. -/
theorem csOk_iff (s : State) : csOk s = true ↔ (s.csN = true ↔ s.frPhase = .idle) := by
  cases hp : s.frPhase <;> cases hc : s.csN <;> simp [csOk, frBusy, hp, hc]

theorem linkOfPhase_idle {s : State} (idle : s.frPhase = .idle) : linkOfPhase s = .closed := by
  simp only [linkOfPhase, idle]

/-- While a frame is in progress the link is open, and a CS_RISE closes it (R105). -/
theorem linkStep_csRise_of_busy {s : State} (busy : s.frPhase ≠ .idle) :
    linkStep (linkOfPhase s) .csRise = some .closed := by
  cases p : s.frPhase with
  | idle => exact absurd p busy
  | _ => simp only [linkOfPhase, p, linkStep]

/-- A RESET closes the link of a frame in progress, and leaves a closed link alone (R230, R231). -/
theorem reset_inv (l : Bool) {s : State} (h : Inv s) : Inv (useDraw (resetWith l s)) := by
  have csIff := (csOk_iff s).mp h.1
  have closed : linkOfPhase (useDraw (resetWith l s)) = .closed := linkOfPhase_idle rfl
  by_cases idle : s.frPhase = .idle
  · have hc : closeFrame s = s := closeFrame_of_released (csIff.mpr idle)
    refine h.of_quiet rfl rfl ?_ ?_ ?_
    · rw [closed, linkOfPhase_idle idle]
    · simp [hc]
    · simp [hc]
  · have hc : closeFrame s = emit .csRise s := closeFrame_of_asserted (Bool.eq_false_iff.mpr (mt csIff.mp idle))
    refine h.of_emit (e := .csRise) rfl rfl ?_ ?_ ?_
    · rw [closed, linkStep_csRise_of_busy idle]
    · simp [hc]
    · simp [hc]

/-- Every operation of the block keeps the framer's invariant; a frame command on its own does not, since it writes a register
without a frame on the wire. -/
theorem exec_inv {i : Instr} {s t : State} (block : isBlockOp i = true) (hx : exec i s = .next t) (h : Inv s) : Inv t := by
  cases framerStep_of_exec hx with
  | keep same => exact h.of_sameFramer same
  | send a d idle => exact startFrame_inv a d idle h
  | frStep => exact stepFrame_inv h
  | reset l => exact reset_inv l h
  | command a d receiver => rw [receiver] at block; cases block

theorem takeTurn_inv {u : Turn} {s t : State} (hx : takeTurn u s = .next t) (h : Inv s) : Inv t := by
  rcases takeTurn_cases u s with ⟨w, r, -, -, e⟩ | ⟨w, i, -, hd, e⟩ | ⟨-, -, e⟩ | ⟨q, qs, -, -, -, e⟩ | ⟨a, d, qs, -, -, -, e⟩ <;>
    rw [e] at hx
  · cases hx
  · exact exec_inv (isBlockOp_of_decodeOp hd) hx h
  · cases hx
    exact h
  · cases hx
    exact h
  · exact exec_inv rfl hx (h.of_sameFramer ⟨rfl, rfl, rfl, rfl, rfl, rfl, rfl⟩)

/-- Taking the scheduler's next choice touches the scheduler's own fields only (R214). -/
theorem sameFramer_nextTurn (s : State) : SameFramer s (nextTurn s).2 := by
  unfold nextTurn
  split <;> exact ⟨rfl, rfl, rfl, rfl, rfl, rfl, rfl⟩

/-- Settles O28: one step is the scheduler's choice and then one turn, and both keep the invariant. -/
theorem everyStepKeepsTheFramerInvariant : Obligations.EveryStepKeepsTheFramerInvariant :=
  fun s _ h hx => takeTurn_inv hx (h.of_sameFramer (sameFramer_nextTurn s))

theorem powerUp_inv (l : Bool) : Inv (State.powerUp l) := ⟨rfl, rfl, rfl, rfl⟩

/-- DISPLAYED is undefined while no frame has written a register (VD14). -/
theorem displayed_nil (n : Nat) : displayed [] n = none := by
  simp [displayed, displayReady, Memory.written]

/-- Settles O29: the power-up state is IDLE with an empty transcript and no register written. -/
theorem resetStateHasTheFramerInvariant : Obligations.ResetStateHasTheFramerInvariant :=
  ⟨powerUp_inv false, fun l => ⟨powerUp_inv l, Memory.read_powerUp l, displayed_nil⟩⟩

/-! ### The writers of the framer's elements -/

/-- Settles O34: each effect an operation can have on the framer writes what the rules name. -/
theorem frElementsHaveTheirWriters : Obligations.FrElementsHaveTheirWriters := by
  intro i s t hx
  cases framerStep_of_exec hx with
  | keep same =>
    obtain ⟨hp, hc, ht, ha, hd, -, hm⟩ := same
    simp [hp, hc, ht, ha, hd, hm]
  | send a d idle => simp [startFrame_eq]
  | frStep =>
    rcases stepFrame_cases s with ⟨p, e⟩ | ⟨p, e⟩ | ⟨p, e⟩ | ⟨p, e⟩ | ⟨p, e⟩ <;> simp [e, p]
  | reset l =>
    cases hc : s.csN with
    | true => simp [closeFrame_of_released hc]
    | false => simp
  | command a d receiver => simp [receiver]

/-! ### The responses to HOST -/

/-- What an operation returns to HOST (R35, R104). -/
def responsesTo (i : Instr) (s : State) : List Response :=
  match i with
  | .rdHpc => [.hpc s.hpc]
  | .rdCur => [.cur s.cur]
  | .take => [.snapshot s.hps s.hpc]
  | _ => []

@[simp] theorem stepFrame_resp (s : State) : (stepFrame s).resp = s.resp := by
  rw [stepFrame_eq]

/-- Each operation appends what it returns to RESP, and nothing else. -/
theorem after_resp (i : Instr) (s : State) : (after i s).resp = s.resp ++ responsesTo i s := by
  cases i with
  | rdHpc | rdCur | take => rfl
  | send | ovfSvc | edgeSvc =>
    simp only [after_send, after_ovfSvc, after_edgeSvc]
    split <;> exact (List.append_nil _).symm
  | frStep | reset => simp [responsesTo]
  | _ => exact (List.append_nil _).symm

/-- Settles O35: an operation that is none of the three reads returns nothing. -/
theorem onlyHostReadsRespond : Obligations.OnlyHostReadsRespond := by
  intro i s t hx
  obtain rfl := exec_eq_next_iff.mp hx
  rw [after_resp]
  cases i with
  | rdHpc | rdCur | take => simp [responsesTo]
  | _ => exact .inl (List.append_nil _)

/-- Settles O37: what an operation returns reads HPC, CUR and HPS only. -/
theorem hostSeesOnlyThreeRegisters : Obligations.HostSeesOnlyThreeRegisters := by
  intro i s s' _ hpc cur hps
  have same : responsesTo i s' = responsesTo i s := by simp only [responsesTo, hpc, cur, hps]
  exact ⟨after i s, after i s', responsesTo i s, exec_eq_next_after i s, exec_eq_next_after i s', after_resp i s,
    same ▸ after_resp i s'⟩

/-! ### TC in IDLE -/

/-- What a run without RESET from s, which is in IDLE, has come to in u: nothing of the framer has happened, or a frame has
started, TC is as the phase says (R42), and back in IDLE it is 1. -/
def TcSince (s u : State) : Prop :=
  (u.frPhase = .idle ∧ u.wire = s.wire ∧ u.tc = s.tc) ∨
  (s.wire.length < u.wire.length ∧ tcOk u = true ∧ (u.frPhase = .idle → u.tc = true))

theorem TcSince.of_sameFramer {s u v : State} (same : SameFramer u v) (h : TcSince s u) : TcSince s v := by
  obtain ⟨hp, -, ht, -, -, hw, -⟩ := same
  simpa only [TcSince, tcOk, hp, ht, hw] using h

theorem TcSince.wire_length_le {s u : State} (h : TcSince s u) : s.wire.length ≤ u.wire.length := by
  rcases h with ⟨-, hw, -⟩ | ⟨hw, -, -⟩
  · rw [hw]
  · exact hw.le

/-- While a frame is in progress the run has put its CS_FALL on the wire. -/
theorem TcSince.of_busy {s u : State} (h : TcSince s u) (busy : u.frPhase ≠ .idle) :
    s.wire.length < u.wire.length ∧ tcOk u = true := by
  rcases h with ⟨idle, -⟩ | ⟨grown, htc, -⟩
  · exact absurd idle busy
  · exact ⟨grown, htc⟩

theorem tcSince_startFrame {s u : State} (a d : Byte) (h : TcSince s u) : TcSince s (startFrame a d u) :=
  .inr ⟨h.wire_length_le.trans_lt (by simp [startFrame_eq]), rfl, nofun⟩

theorem tcSince_stepFrame {s u : State} (h : TcSince s u) : TcSince s (stepFrame u) := by
  rcases stepFrame_cases u with ⟨-, e⟩ | ⟨p, e⟩ | ⟨p, e⟩ | ⟨p, e⟩ | ⟨p, e⟩ <;> rw [e]
  case inl => exact h
  all_goals obtain ⟨grown, htc⟩ := h.of_busy (by simp [p])
  · exact .inr ⟨grown.trans (by simp), rfl, nofun⟩
  · exact .inr ⟨grown, rfl, nofun⟩
  · exact .inr ⟨grown.trans (by simp), rfl, nofun⟩
  · have tcSet : u.tc = true := by simpa only [tcOk, p] using htc
    exact .inr ⟨grown.trans (by simp), rfl, fun _ => tcSet⟩

theorem tcSince_exec {s u v : State} {i : Instr} (block : isBlockOp i = true) (noReset : i ≠ .reset)
    (hx : exec i u = .next v) (h : TcSince s u) : TcSince s v := by
  cases framerStep_of_exec hx with
  | keep same => exact h.of_sameFramer same
  | send a d idle => exact tcSince_startFrame a d h
  | frStep => exact tcSince_stepFrame h
  | reset l => exact absurd rfl noReset
  | command a d receiver => rw [receiver] at block; cases block

theorem tcSince_runOps {s u t : State} {ops : List Instr} (hops : ∀ i ∈ ops, isBlockOp i = true ∧ i ≠ .reset)
    (hx : runOps ops u = .next t) (h : TcSince s u) : TcSince s t := by
  induction ops generalizing u with
  | nil =>
    cases hx
    exact h
  | cons i is ih =>
    rw [runOps_cons] at hx
    obtain ⟨⟨block, noReset⟩, rest⟩ := List.forall_mem_cons.mp hops
    exact ih rest hx (tcSince_exec block noReset (exec_eq_next_after i u) h)

theorem TcSince.tc_of_idle {s t : State} (h : TcSince s t) (idle : t.frPhase = .idle) :
    t.tc = (s.tc || decide (t.wire ≠ s.wire)) := by
  rcases h with ⟨-, hw, htc⟩ | ⟨grown, -, htc⟩
  · simp [hw, htc]
  · have changed : t.wire ≠ s.wire := fun e => by simp [e] at grown
    simp [changed, htc idle]

/-- Settles O42: `TcSince` holds at the start of the run and every operation but RESET keeps it. -/
theorem transferCompleteInIdle : Obligations.TransferCompleteInIdle := by
  refine ⟨fun ops s t hops start hx idle => ?_, fun s t hx => ?_⟩
  · have since : TcSince s s := .inl ⟨start, rfl, rfl⟩
    exact (tcSince_runOps hops hx since).tc_of_idle idle
  · obtain rfl := exec_eq_next_iff.mp hx
    simp

/-! ### The timer pair -/

theorem tmrHigh_toNat (t : Half) : (tmrHigh t).toNat = t.toNat / 256 := by
  have := t.isLt
  simp [tmrHigh, Nat.shiftRight_eq_div_pow]
  omega

theorem tmrLow_toNat (t : Half) : (tmrLow t).toNat = t.toNat % 256 := by
  simp [tmrLow]

theorem tmrPair_halves (t : Half) : tmrPair (tmrHigh t) (tmrLow t) = t := by
  simp only [tmrPair, tmrHigh, tmrLow, BitVec.extractLsb'_append_extractLsb'_eq_extractLsb']
  simp

/-- Settles O60: the halves are the two bytes of the timer, and appending them gives it back. -/
theorem timerPairIsTheTimer : Obligations.TimerPairIsTheTimer := fun t =>
  ⟨tmrPair_halves t, tmrHigh_toNat t, tmrLow_toNat t⟩

end Sys2Proof.Machine
end

