-- ==== Sys2Proof/Proofs/Memory.lean ====
section
/-! PROOFS. The statements about the memory (20_memory.md): every step keeps the display register space in its canonical form, and
what TAKE, the reads and a frame leave behind when repeated. What a whole frame does is said once here, in `runOps_frameOps`. -/

namespace Sys2Proof.Machine

/-! ### What every step keeps -/

/-- A predicate of the framer, the wire and the display registers that every operation of the block keeps is kept by every step:
the scheduler's own fields and HOST's held requests are all that a step touches beside the operation (R214). -/
theorem step_keeps {P : State → Prop} (ofSame : ∀ {s t}, SameFramer s t → P s → P t)
    (ofExec : ∀ {i s t}, isBlockOp i = true → exec i s = .next t → P s → P t)
    {s t : State} (hx : step s = .next t) (h : P s) : P t := by
  replace h : P (nextTurn s).2 := ofSame (sameFramer_nextTurn s) h
  unfold step at hx
  rcases takeTurn_cases (nextTurn s).1 (nextTurn s).2 with
    ⟨w, r, -, -, e⟩ | ⟨w, i, -, hd, e⟩ | ⟨-, -, e⟩ | ⟨q, qs, -, -, -, e⟩ | ⟨a, d, qs, -, -, -, e⟩ <;> rw [e] at hx
  · cases hx
  · exact ofExec (isBlockOp_of_decodeOp hd) hx h
  · cases hx
    exact h
  · cases hx
    exact h
  · exact ofExec rfl hx (ofSame (s := (nextTurn s).2) ⟨rfl, rfl, rfl, rfl, rfl, rfl, rfl⟩ h)

/-- Every instruction keeps the canonical form: DREG is written by the receiver alone, through Memory.write (R34). -/
theorem exec_wf {i : Instr} {s t : State} (hx : exec i s = .next t) (h : s.dreg.wf = true) : t.dreg.wf = true := by
  cases framerStep_of_exec hx with
  | keep same => rwa [same.dreg]
  | send a d idle => exact h
  | frStep => exact stepFrame_wf s h
  | reset l => exact closeFrame_wf s h
  | command a d receiver => exact frameWrite_wf a d s h

/-- Settles O30: the canonical form speaks of DREG only, and every operation keeps it. -/
theorem everyStepKeepsTheMemoryForm : Obligations.EveryStepKeepsTheMemoryForm := fun _ _ h hx =>
  step_keeps (P := fun s => s.dreg.wf = true) (fun same h => by rwa [same.dreg]) (fun _ => exec_wf) hx h

/-! ### The accumulators between two TAKEs -/

/-- An operation other than EDGE_SVC keeps both accumulators or clears both (R172). -/
theorem after_accumulators {i : Instr} (s : State) (noEdge : i ≠ .edgeSvc) :
    ((after i s).hps = s.hps ∧ (after i s).hpc = s.hpc) ∨ ((after i s).hps = 0 ∧ (after i s).hpc = 0) := by
  cases i with
  | edgeSvc => exact absurd rfl noEdge
  | take => exact .inr ⟨rfl, rfl⟩
  | reset => rw [after_reset, resetWith_eq]; exact .inr ⟨rfl, rfl⟩
  | frStep => rw [after_frStep, stepFrame_eq]; exact .inl ⟨rfl, rfl⟩
  | send | ovfSvc =>
    simp only [after_send, after_ovfSvc]
    split <;> exact .inl ⟨rfl, rfl⟩
  | _ => exact .inl ⟨rfl, rfl⟩

/-- Accumulators that are clear stay clear on a run without EDGE_SVC. -/
theorem accumulators_clear_runOps {ops : List Instr} {s t : State} (noEdge : .edgeSvc ∉ ops) (hx : runOps ops s = .next t)
    (h : s.hps = 0 ∧ s.hpc = 0) : t.hps = 0 ∧ t.hpc = 0 := by
  induction ops generalizing s with
  | nil =>
    cases hx
    exact h
  | cons i is ih =>
    rw [runOps_cons] at hx
    refine ih (List.not_mem_of_not_mem_cons noEdge) hx ?_
    rcases after_accumulators s (List.ne_of_not_mem_cons noEdge).symm with ⟨hps, hpc⟩ | clear
    · rwa [hps, hpc]
    · exact clear

/-- A TAKE after a TAKE returns (0, 0) when no EDGE_SVC came between (R56, R166). -/
theorem take_after_take_returns_zero {ops : List Instr} {s t : State} (noEdge : .edgeSvc ∉ ops)
    (hx : runOps (.take :: ops) s = .next t) : (after .take t).resp = t.resp ++ [.snapshot 0 0] := by
  rw [runOps_cons] at hx
  obtain ⟨hps, hpc⟩ := accumulators_clear_runOps noEdge hx ⟨rfl, rfl⟩
  rw [after_resp, responsesTo, hps, hpc]

/-! ### A whole frame -/

section
variable {s : State}

theorem stepFrame_of_addr (h : s.frPhase = .addr) :
    stepFrame s = { s with wire := s.wire ++ [.byte s.frAddr], tc := true, frPhase := .gap } := by
  simpa [h] using stepFrame_cases s

theorem stepFrame_of_gap (h : s.frPhase = .gap) : stepFrame s = { s with tc := false, frPhase := .data } := by
  simpa [h] using stepFrame_cases s

theorem stepFrame_of_data (h : s.frPhase = .data) :
    stepFrame s = { s with wire := s.wire ++ [.byte s.frData], tc := true, frPhase := .endPhase } := by
  simpa [h] using stepFrame_cases s

theorem stepFrame_of_endPhase (h : s.frPhase = .endPhase) :
    stepFrame s =
      { s with
        csN := true, wire := s.wire ++ [.csRise], dreg := rxWrite (rxBytes s.wire) s.dreg, frPhase := .idle } := by
  simpa [h, emit_csRise_dreg] using stepFrame_cases s

end

/-- The state a whole frame leaves a block that is in IDLE in: its four events are on the wire and its register is written. -/
def sentFrame (a d : Byte) (s : State) : State :=
  { s with
    frPhase := .idle, csN := true, tc := true, frAddr := a, frData := d,
    wire := s.wire ++ [.csFall, .byte a, .byte d, .csRise], dreg := s.dreg.write a.toNat d }

/-- SEND and four FR_STEPs out of IDLE send one frame (R83, R100, R101, R130). -/
theorem runOps_frameOps (a d : Byte) {s : State} (idle : s.frPhase = .idle) :
    runOps (frameOps a d) s = .next (sentFrame a d s) := by
  have free : frBusy s = false := (frBusy_eq_false_iff s).mpr idle
  have rx : rxBytes (s.wire ++ [.csFall, .byte a, .byte d]) = [a, d] := by simp [rxBytes, rxFrom_append, rxFrom]
  simp [frameOps, free, startFrame_eq, stepFrame_of_addr, stepFrame_of_gap, stepFrame_of_data, stepFrame_of_endPhase, rx,
    sentFrame]

/-- Writing the same byte again changes nothing, whatever the form of the list. -/
@[simp] theorem Memory.write_write_same (m : Memory) (a : Nat) (b : Byte) : (m.write a b).write a b = m.write a b := by
  induction m with
  | nil => simp [Memory.write]
  | cons c m ih =>
    obtain ⟨k, v⟩ := c
    rcases Nat.lt_trichotomy a k with below | here | above
    · simp [Memory.write, below]
    · simp [Memory.write, here]
    · simp [Memory.write, above.not_gt, above.ne', ih]

/-- Settles O52: the second TAKE finds both accumulators clear, a read changes nothing that it returns, and the second frame
writes again the byte that stands there. -/
theorem sideEffectsOfRepeating : Obligations.SideEffectsOfRepeating := by
  refine ⟨fun ops s t noEdge hx => ?_, fun s => ?_, fun a d s idle => ?_⟩
  · exact ⟨_, exec_eq_next_after .take t, take_after_take_returns_zero noEdge hx⟩
  · exact ⟨_, _, rfl, by simp, rfl, by simp⟩
  · exact ⟨_, _, runOps_frameOps a d idle, runOps_frameOps a d rfl, rfl, Memory.write_write_same s.dreg a.toNat d⟩

end Sys2Proof.Machine
end

