-- ==== Sys2Proof/Proofs/Encoding.lean ====
section
/-! PROOFS. The statements about the encoding (30_encoding.md): a word spells the one operation that is encoded to it
(`decodeOp_eq_ok_iff`), the words that are refused, frame words by their address, a trace as a schedule, the words of a trace line,
and the display that INIT and SHOW leave. How capture and read operations between the words of frames make no difference to the
framer is said once, in `frPart_afterAll_filter`. -/

namespace Sys2Proof.Machine

/-! ### The fields of a word -/

theorem fieldsOf_op_toNat (w : OpWord) : (fieldsOf w).op.toNat = w.toNat / 65536 := by
  have := w.isLt
  simp only [fieldsOf, BitVec.extractLsb'_toNat, Nat.shiftRight_eq_div_pow]
  omega

theorem fieldsOf_a_toNat (w : OpWord) : (fieldsOf w).a.toNat = w.toNat / 256 % 256 := by
  simp [fieldsOf, Nat.shiftRight_eq_div_pow]

theorem fieldsOf_d_toNat (w : OpWord) : (fieldsOf w).d.toNat = w.toNat % 256 := by
  simp [fieldsOf]

@[simp] theorem fieldsOf_wordOf (f : OpFields) : fieldsOf (wordOf f) = f := by
  have low : (f.op ++ f.a ++ f.d).extractLsb' 8 8 = f.a := by
    rw [BitVec.extractLsb'_append_eq_of_le (Nat.le_refl 8), BitVec.extractLsb'_append_eq_right]
  have high : (f.op ++ f.a ++ f.d).extractLsb' 16 4 = f.op := by
    rw [BitVec.extractLsb'_append_eq_of_le (by decide), BitVec.extractLsb'_append_eq_left]
  simp only [fieldsOf, wordOf, low, high, BitVec.extractLsb'_append_eq_right]

theorem toNat_eq_fields (w : OpWord) :
    w.toNat = (fieldsOf w).op.toNat * 65536 + (fieldsOf w).a.toNat * 256 + (fieldsOf w).d.toNat := by
  rw [fieldsOf_op_toNat, fieldsOf_a_toNat, fieldsOf_d_toNat]
  omega

theorem wordOf_toNat (f : OpFields) : (wordOf f).toNat = f.op.toNat * 65536 + f.a.toNat * 256 + f.d.toNat := by
  rw [toNat_eq_fields, fieldsOf_wordOf]

/-- No bit of a word is outside its fields (R71). -/
@[simp] theorem wordOf_fieldsOf (w : OpWord) : wordOf (fieldsOf w) = w :=
  BitVec.eq_of_toNat_eq (by rw [wordOf_toNat, ← toNat_eq_fields])

theorem wordOf_eq_iff (f : OpFields) (w : OpWord) :
    wordOf f = w ↔ w.toNat = f.op.toNat * 65536 + f.a.toNat * 256 + f.d.toNat := by
  rw [← BitVec.toNat_inj, wordOf_toNat, eq_comm]

@[simp] theorem frameAddr_frameOf (a d : Byte) : frameAddr (frameOf a d) = a := BitVec.extractLsb'_append_eq_left

@[simp] theorem frameData_frameOf (a d : Byte) : frameData (frameOf a d) = d := BitVec.extractLsb'_append_eq_right

theorem frameAddr_eq_ofNat (f : FrameWord) : frameAddr f = BitVec.ofNat 8 (f.toNat / 256) := by
  simp [← BitVec.toNat_inj, frameAddr, Nat.shiftRight_eq_div_pow]

theorem frameData_eq_ofNat (f : FrameWord) : frameData f = BitVec.ofNat 8 (f.toNat % 256) := by
  simp [← BitVec.toNat_inj, frameData]

/-! ### Decoding and encoding undo each other -/

theorem decodeFrame_frameOf (a d : Byte) : decodeFrame (frameOf a d) = commandOf a d := by
  simp [decodeFrame]

theorem decodeOp_send (a d : Byte) : decodeOp (wordOf ⟨0x1, a, d⟩) = .ok (.send a d) := by
  simp [decodeOp, OpFields.check, OpFields.opReserved, OpFields.unusedZero]

theorem decode_encode (i : Instr) : decode (encode i) = some i := by
  cases i with
  | send a d => exact congrArg Except.toOption (decodeOp_send a d)
  | line v => cases v <;> rfl
  | rdHpc | rdCur | take | tick | ovfSvc | edgeSvc | frStep | reset => rfl
  | _ d => exact decodeFrame_frameOf _ d

/-- Settles O1, instruction by instruction: a word's fields are the ones it was put together from. -/
theorem everyInstructionDecodesBack : Obligations.EveryInstructionDecodesBack := decode_encode

theorem decodeOp_of_encode {w : OpWord} {i : Instr} (h : encode i = .op20 w) : decodeOp w = .ok i := by
  have decoded : (decodeOp w).toOption = some i := by
    rw [← decode_encode i, h]
    rfl
  cases hw : decodeOp w with
  | error r => rw [hw] at decoded; cases decoded
  | ok j => rw [hw] at decoded; cases decoded; rfl

theorem decodeOp_of_check {w : OpWord} {r : OpReason} (h : (fieldsOf w).check = some r) : decodeOp w = .error r := by
  simp [decodeOp, h]

theorem check_eq_none_iff (f : OpFields) : f.check = none ↔ f.opReserved = false ∧ f.unusedZero = true := by
  unfold OpFields.check
  cases f.opReserved <;> cases f.unusedZero <;> simp

/-- An operation code that is not reserved is one of the ten of R72: SEND's and LINE's, and those of the operations without
operands. -/
theorem op_cases_of_not_reserved {f : OpFields} (h : f.opReserved = false) :
    f.op = 0x1 ∨ f.op = 0x9 ∨ f.op = 0x2 ∨ f.op = 0x3 ∨ f.op = 0x4 ∨ f.op = 0x8 ∨ f.op = 0xA ∨ f.op = 0xB ∨ f.op = 0xC ∨
      f.op = 0xF := by
  unfold OpFields.opReserved at h
  generalize f.op = op at h ⊢
  revert op
  decide

/-- A D field without stray bits is the one that spells its own level (R72, R74). -/
theorem levelByte_levelOf {d : Byte} (h : d.extractLsb' 1 7 = 0) : levelByte (levelOf d) = d := by
  have small : d.toNat / 2 % 2 ^ 7 = 0 := by
    simpa [Nat.shiftRight_eq_div_pow] using congrArg BitVec.toNat h
  obtain rfl | rfl : d = 0 ∨ d = 1 := by
    simp only [← BitVec.toNat_inj]
    have : d.toNat = 0 ∨ d.toNat = 1 := by omega
    exact this
  · rfl
  · rfl

/-- Fields that pass the decoder's check spell an operation: the ones it does not use are zero (R72, R73). -/
theorem exists_encode_of_check {f : OpFields} (h : f.check = none) : ∃ i, encode i = .op20 (wordOf f) := by
  obtain ⟨notReserved, unused⟩ := (check_eq_none_iff f).mp h
  obtain ⟨op, a, d⟩ := f
  rcases op_cases_of_not_reserved notReserved with e | e | e | e | e | e | e | e | e | e
  all_goals
    obtain rfl : op = _ := e
    simp [OpFields.unusedZero] at unused
  · exact ⟨.send a d, rfl⟩
  · exact ⟨.line (levelOf d), by simp [encode, unused, levelByte_levelOf]⟩
  all_goals obtain ⟨rfl, rfl⟩ := unused
  · exact ⟨.rdHpc, rfl⟩
  · exact ⟨.rdCur, rfl⟩
  · exact ⟨.take, rfl⟩
  · exact ⟨.tick, rfl⟩
  · exact ⟨.ovfSvc, rfl⟩
  · exact ⟨.edgeSvc, rfl⟩
  · exact ⟨.frStep, rfl⟩
  · exact ⟨.reset, rfl⟩

theorem exists_decodeOp_of_check {w : OpWord} (h : (fieldsOf w).check = none) :
    ∃ i, encode i = .op20 w ∧ decodeOp w = .ok i := by
  obtain ⟨i, hi⟩ := exists_encode_of_check h
  rw [wordOf_fieldsOf] at hi
  exact ⟨i, hi, decodeOp_of_encode hi⟩

/-- A word spells the one operation that is encoded to it. -/
theorem decodeOp_eq_ok_iff (w : OpWord) (i : Instr) : decodeOp w = .ok i ↔ encode i = .op20 w := by
  refine ⟨fun h => ?_, decodeOp_of_encode⟩
  cases hc : (fieldsOf w).check with
  | some r => rw [decodeOp_of_check hc] at h; cases h
  | none =>
    obtain ⟨j, hj, hd⟩ := exists_decodeOp_of_check hc
    obtain rfl : j = i := Except.ok.inj (hd.symm.trans h)
    exact hj

theorem decodeOp_eq_ok_iff_toNat {i : Instr} {n : Nat} (hn : n < 2 ^ 20) (hi : encode i = .op20 (BitVec.ofNat 20 n))
    (w : OpWord) : decodeOp w = .ok i ↔ w.toNat = n := by
  rw [decodeOp_eq_ok_iff, hi, Code.op20.injEq, ← BitVec.toNat_inj, BitVec.toNat_ofNat, Nat.mod_eq_of_lt hn, eq_comm]

theorem encode_send (a d : Byte) : encode (.send a d) = .op20 (BitVec.ofNat 20 (0x10000 + a.toNat * 256 + d.toNat)) := by
  rw [encode, Code.op20.injEq, wordOf_eq_iff, BitVec.toNat_ofNat]
  change _ = 1 * 65536 + a.toNat * 256 + d.toNat
  have := a.isLt
  have := d.isLt
  omega

theorem decodeOp_eq_send_iff (w : OpWord) (a d : Byte) :
    decodeOp w = .ok (.send a d) ↔ w.toNat = 0x10000 + a.toNat * 256 + d.toNat := by
  have := a.isLt
  have := d.isLt
  exact decodeOp_eq_ok_iff_toNat (by omega) (encode_send a d) w

/-- The words of SEND are 0x10000 to 0x1FFFF (R73). -/
theorem exists_decodeOp_eq_send_iff (w : OpWord) :
    (∃ a d : Byte, decodeOp w = .ok (.send a d)) ↔ 0x10000 ≤ w.toNat ∧ w.toNat ≤ 0x1FFFF := by
  simp only [decodeOp_eq_send_iff]
  constructor
  · rintro ⟨a, d, h⟩
    have := a.isLt
    have := d.isLt
    omega
  · rintro ⟨low, high⟩
    refine ⟨(fieldsOf w).a, (fieldsOf w).d, ?_⟩
    rw [fieldsOf_a_toNat, fieldsOf_d_toNat]
    omega

/-- Settles O2: decoding to an operation is being the operation's word, and SEND's words are read off their two bytes. -/
theorem operationWordsAreExactlyTheTables : Obligations.OperationWordsAreExactlyTheTables := by
  refine fun w => ⟨decodeOp_eq_send_iff w, exists_decodeOp_eq_send_iff w, fun v => ?_, ?_⟩
  · cases v
    · exact decodeOp_eq_ok_iff_toNat (by decide) rfl w
    · exact decodeOp_eq_ok_iff_toNat (by decide) rfl w
  · refine ⟨?_, ?_, ?_, ?_, ?_, ?_, ?_, ?_⟩
    all_goals exact decodeOp_eq_ok_iff_toNat (by decide) rfl w

/-! ### The words that are refused -/

theorem fieldsOf_op_eq_iff (w : OpWord) (op : BitVec 4) : (fieldsOf w).op = op ↔ w.toNat / 65536 = op.toNat := by
  rw [← BitVec.toNat_inj, fieldsOf_op_toNat]

theorem fieldsOf_opReserved_iff (w : OpWord) :
    (fieldsOf w).opReserved = true ↔
      w.toNat / 65536 = 0x0 ∨ w.toNat / 65536 = 0x5 ∨ w.toNat / 65536 = 0x6 ∨ w.toNat / 65536 = 0x7 ∨
        w.toNat / 65536 = 0xD ∨ w.toNat / 65536 = 0xE := by
  simp [OpFields.opReserved, fieldsOf_op_eq_iff, or_assoc]

theorem fieldsOf_unusedZero_iff (w : OpWord) :
    (fieldsOf w).unusedZero = true ↔
      ¬ ((w.toNat / 65536 ≠ 0x1 ∧ w.toNat / 65536 ≠ 0x9 ∧ w.toNat % 65536 ≠ 0) ∨
        (w.toNat / 65536 = 0x9 ∧ 2 ≤ w.toNat % 65536)) := by
  simp only [OpFields.unusedZero, beq_iff_eq, fieldsOf_op_eq_iff, BitVec.ofNat_eq_ofNat, BitVec.toNat_ofNat]
  split
  next send => simp [send]
  next notSend =>
    split
    next line =>
      simp [← BitVec.toNat_inj, fieldsOf_a_toNat, fieldsOf_d_toNat, Nat.shiftRight_eq_div_pow]
      omega
    next notLine =>
      simp [← BitVec.toNat_inj, fieldsOf_a_toNat, fieldsOf_d_toNat]
      omega

theorem check_eq_reservedOp {f : OpFields} (h : f.opReserved = true) : f.check = some .reservedOp := by
  simp [OpFields.check, h]

theorem check_eq_nonzeroReservedField {f : OpFields} (h : f.opReserved = false) (hu : f.unusedZero = false) :
    f.check = some .nonzeroReservedField := by
  simp [OpFields.check, h, hu]

theorem step_op {s : State} {w : OpWord} {rest : List Turn} (h : s.schedule = .op w :: rest) :
    step s = takeTurn (.op w) { s with schedule := rest } := by
  simp [step, nextTurn, h]

/-- A word that fails the decoder's check is refused when its turn comes (R78). -/
theorem step_refuses {s : State} {w : OpWord} {rest : List Turn} {r : OpReason} (h : s.schedule = .op w :: rest)
    (hc : (fieldsOf w).check = some r) : step s = .refused (refusalOf r) := by
  simp [step_op h, takeTurn, decodeOp_of_check hc]

/-- A word that spells an operation runs it when its turn comes (R79). -/
theorem step_runs {s : State} {w : OpWord} {rest : List Turn} {i : Instr} (h : s.schedule = .op w :: rest)
    (hi : decodeOp w = .ok i) : step s = exec i { s with schedule := rest } := by
  simp [step_op h, takeTurn, hi]

/-- Settles O7: the turn is the word's, and the word spells the operation. -/
theorem stepRunsTheScheduledWord : Obligations.StepRunsTheScheduledWord := fun _ _ _ _ h hi => step_runs h hi

/-- Settles O3: the statement's three cases are the three answers of the decoder's check. -/
theorem reservedWordsAreRefused : Obligations.ReservedWordsAreRefused := by
  intro s w rest h
  dsimp only
  rw [← fieldsOf_opReserved_iff, ← not_not (a := _ ∨ _ ∧ _), ← fieldsOf_unusedZero_iff]
  simp only [Bool.not_eq_true, Bool.not_eq_false]
  refine ⟨fun reserved => ?_, fun notReserved stray => ?_, fun notReserved noStray => ?_⟩
  · exact step_refuses h (check_eq_reservedOp reserved)
  · exact step_refuses h (check_eq_nonzeroReservedField notReserved stray)
  · obtain ⟨i, -, hi⟩ := exists_decodeOp_of_check ((check_eq_none_iff (fieldsOf w)).mpr ⟨notReserved, noStray⟩)
    exact ⟨_, (step_runs h hi).trans (exec_eq_next_after i _)⟩

/-! ### Frame words -/

theorem decodeFrame_eq (f : FrameWord) :
    decodeFrame f = commandOf (BitVec.ofNat 8 (f.toNat / 256)) (BitVec.ofNat 8 (f.toNat % 256)) := by
  rw [decodeFrame, frameAddr_eq_ofNat, frameData_eq_ofNat]

/-- A reserved address selects no command (R77). -/
theorem commandOf_of_reserved {a : Byte} (d : Byte) (h : addrReserved a = true) : commandOf a d = none := by
  unfold commandOf
  iterate 13 rw [if_neg (by rintro rfl; exact absurd h (by decide))]

/-- Settles O4: the address byte selects the command. -/
theorem frameWordsDecodeByTheirAddress : Obligations.FrameWordsDecodeByTheirAddress := by
  intro f
  simp only [decodeFrame_eq]
  refine ⟨?_, ?_, ?_, ?_, ?_, ?_, ?_, ?_, ?_, ?_, ?_, ?_, ?_, fun reserved => ?_⟩
  case refine_14 =>
    have := f.isLt
    refine commandOf_of_reserved _ ?_
    simp [addrReserved, ← BitVec.toNat_inj]
    omega
  all_goals
    intro h
    rw [h]
    rfl

/-- Settles O6: the decoder evaluates to each of them. -/
theorem sampleWordsDecodeAsTheSpecSays : Obligations.SampleWordsDecodeAsTheSpecSays := by
  refine ⟨?_, ?_, ?_, ?_, ?_, ?_, ?_, ?_, ?_⟩ <;> rfl

/-! ### A trace runs its operations -/

/-- The operations of the block are those with an OP20 word (R72). -/
theorem exists_word_of_isBlockOp {i : Instr} (h : isBlockOp i = true) : ∃ w, encode i = .op20 w := by
  cases i with
  | send | rdHpc | rdCur | take | tick | line | ovfSvc | edgeSvc | frStep | reset => exact ⟨_, rfl⟩
  | _ => cases h

/-- s with other coming choices of the scheduler. -/
def withSchedule (q : List Turn) (s : State) : State := { s with schedule := q }

theorem withTrace_eq (ws : List OpWord) (s : State) : withTrace ws s = withSchedule (ws.map .op ++ s.schedule) s := rfl

theorem stepFrame_withSchedule (q : List Turn) (s : State) :
    stepFrame (withSchedule q s) = withSchedule q (stepFrame s) := by
  cases h : s.frPhase <;> simp only [stepFrame, frameEvent, withSchedule, h] <;> rfl

theorem closeFrame_withSchedule (q : List Turn) (s : State) :
    closeFrame (withSchedule q s) = withSchedule q (closeFrame s) :=
  (apply_ite (withSchedule q) (s.csN = true) s (emit .csRise s)).symm

/-- No operation reads or writes the scheduler's coming choices (R214). -/
theorem after_withSchedule (i : Instr) (q : List Turn) (s : State) :
    after i (withSchedule q s) = withSchedule q (after i s) := by
  cases i with
  | send | ovfSvc | edgeSvc =>
    simp only [after_send, after_ovfSvc, after_edgeSvc, apply_ite (withSchedule q)]
    rfl
  | frStep => exact stepFrame_withSchedule q s
  | reset =>
    simp only [after_reset, resetWith, closeFrame_withSchedule]
    rfl
  | _ => rfl

theorem after_schedule (i : Instr) (s : State) : (after i s).schedule = s.schedule := by
  have same : after i s = withSchedule s.schedule (after i s) := after_withSchedule i s.schedule s
  rw [same]
  rfl

theorem after_withTrace (i : Instr) (ws : List OpWord) (s : State) :
    after i (withTrace ws s) = withTrace ws (after i s) := by
  rw [withTrace_eq, withTrace_eq, after_withSchedule, after_schedule]

theorem opWords_cons {i : Instr} {w : OpWord} (h : encode i = .op20 w) (is : List Instr) :
    opWords (i :: is) = w :: opWords is := by
  simp only [opWords, h]

theorem step_withTrace_cons {i : Instr} {w : OpWord} (h : encode i = .op20 w) (ws : List OpWord) (s : State) :
    step (withTrace (w :: ws) s) = .next (withTrace ws (after i s)) := by
  rw [step_runs (w := w) rfl (decodeOp_of_encode h), exec_eq_next_after, ← after_withTrace]
  rfl

/-- Settles O58, by induction on the operations: one step uses up one word and leaves the rest of the trace. -/
theorem traceRunsItsOperationsInOrder : Obligations.TraceRunsItsOperationsInOrder := by
  intro ops
  induction ops with
  | nil => exact fun s _ => rfl
  | cons i is ih =>
    intro s block
    obtain ⟨blockOp, rest⟩ := List.forall_mem_cons.mp block
    obtain ⟨w, hw⟩ := exists_word_of_isBlockOp blockOp
    rw [opWords_cons hw, List.length_cons, steps, step_withTrace_cons hw, runOps_cons]
    exact ih _ rest

/-! ### The words of a trace line -/

theorem opWords_append (is js : List Instr) : opWords (is ++ js) = opWords is ++ opWords js := by
  induction is with
  | nil => rfl
  | cons i is ih =>
    simp only [List.cons_append, opWords, ih]
    split <;> rfl

/-- The words of one frame: its SEND and four FR_STEP (R83). -/
theorem opWords_frameOps (a d : Byte) :
    opWords (frameOps a d) = BitVec.ofNat 20 (0x10000 + a.toNat * 256 + d.toNat) :: List.replicate 4 0xC0000 := by
  rw [frameOps, opWords_cons (encode_send a d)]
  rfl

theorem opWords_framesOps (fs : List (Byte × Byte)) :
    opWords (framesOps fs) = fs.flatMap fun p => opWords (frameOps p.1 p.2) := by
  induction fs with
  | nil => rfl
  | cons p fs ih => rw [framesOps, opWords_append, ih, List.flatMap_cons]

theorem opWords_ticksOps (n : Nat) : opWords (ticksOps n) = List.replicate n 0x80000 := by
  induction n with
  | zero => rfl
  | succ n ih => exact congrArg (0x80000 :: ·) ih

/-- The k-th frame of SHOW holds the k-th decimal digit of v, the least significant first (R85). -/
theorem showFrom_eq_map (i n v : Nat) :
    showFrom i n v = (List.range n).map fun k => (BitVec.ofNat 8 (i + k), BitVec.ofNat 8 (v / 10 ^ k % 10)) := by
  induction n generalizing i v with
  | zero => rfl
  | succ n ih =>
    rw [showFrom, ih, List.range_succ_eq_map, List.map_cons, List.map_map]
    simp [Function.comp_def, Nat.div_div_eq_div_mul, Nat.pow_succ', Nat.add_assoc, Nat.add_comm 1]

theorem showFrames_eq_map (v n : Nat) :
    showFrames v n = (List.range n).map fun k => (BitVec.ofNat 8 (k + 1), BitVec.ofNat 8 (v / 10 ^ k % 10)) := by
  simp only [showFrames, showFrom_eq_map, Nat.add_comm 1]

theorem assembleLine_of_check_false {l : Line} (h : l.check = false) : assembleLine l = none := by
  simp [assembleLine, expandLine, h]

theorem toNat_ofNat_byte {n : Nat} (h : n ≤ 255) : (BitVec.ofNat 8 n).toNat = n :=
  Nat.mod_eq_of_lt (Nat.lt_succ_of_le h)

theorem assembleLine_send {a d : Nat} (ha : a ≤ 255) (hd : d ≤ 255) :
    assembleLine (.send a d) = some [BitVec.ofNat 20 (0x10000 + a * 256 + d)] := by
  simp only [assembleLine, expandLine, Line.check, ha, hd, decide_true, Bool.and_self, if_true, Option.map_some,
    opWords_cons (encode_send _ _), toNat_ofNat_byte]
  rfl

theorem assembleLine_frame {a d : Nat} (ha : a ≤ 255) (hd : d ≤ 255) :
    assembleLine (.frame a d) = some (BitVec.ofNat 20 (0x10000 + a * 256 + d) :: List.replicate 4 0xC0000) := by
  simp only [assembleLine, expandLine, Line.check, ha, hd, decide_true, Bool.and_self, if_true, Option.map_some,
    opWords_frameOps, toNat_ofNat_byte]

theorem assembleLine_line (v : Nat) :
    assembleLine (.line v) = if v ≤ 1 then some [BitVec.ofNat 20 (0x90000 + v)] else none := by
  split
  next h =>
    obtain rfl | rfl : v = 0 ∨ v = 1 := by omega
    · rfl
    · rfl
  next h => exact assembleLine_of_check_false (decide_eq_false h)

theorem assembleLine_ticks (n : Nat) : assembleLine (.ticks n) = some (List.replicate n 0x80000) :=
  congrArg some (opWords_ticksOps n)

theorem opWords_showFrames {n : Nat} (hn : n ≤ 8) (v : Nat) :
    opWords (framesOps (showFrames v n)) =
      (List.range n).flatMap fun k =>
        BitVec.ofNat 20 (0x10000 + (k + 1) * 256 + v / 10 ^ k % 10) :: List.replicate 4 0xC0000 := by
  rw [opWords_framesOps, showFrames_eq_map, List.flatMap_map]
  refine List.flatMap_congr fun k hk => ?_
  have := List.mem_range.mp hk
  rw [opWords_frameOps, toNat_ofNat_byte (by omega), toNat_ofNat_byte (by omega)]

theorem opWords_initFrames {n : Nat} (hn : n ≤ 8) :
    opWords (framesOps (initFrames n)) =
      [0x109FF, 0x10F00, 0x10C01, BitVec.ofNat 20 (0x10B00 + (n - 1)), BitVec.ofNat 20 (0x10A00 + n)].flatMap fun w =>
        w :: List.replicate 4 0xC0000 := by
  simp [opWords_framesOps, initFrames, opWords_frameOps, Nat.mod_eq_of_lt (show n < 256 by omega),
    Nat.mod_eq_of_lt (show n - 1 < 256 by omega)]

theorem assembleLine_showValue (v n : Nat) : assembleLine (.showValue v n) =
    if 1 ≤ n ∧ n ≤ 8 then some (opWords (framesOps (showFrames v n))) else none := by
  simp only [assembleLine, expandLine, Line.check, Bool.and_eq_true, decide_eq_true_eq]
  split <;> rfl

theorem assembleLine_init (n : Nat) : assembleLine (.init n) =
    if 1 ≤ n ∧ n ≤ 8 then some (opWords (framesOps (initFrames n))) else none := by
  simp only [assembleLine, expandLine, Line.check, Bool.and_eq_true, decide_eq_true_eq]
  split <;> rfl

/-- Settles O57: one lemma for each form of a line with operands; the other forms are one word each. -/
theorem traceLinesAssembleToTheirWords : Obligations.TraceLinesAssembleToTheirWords := by
  refine ⟨fun a d ha hd => ⟨assembleLine_send ha hd, assembleLine_frame ha hd⟩, fun a d h => ?_, assembleLine_line,
    assembleLine_ticks, fun v n => ?_, fun n => ?_, rfl, rfl, rfl, rfl, rfl, rfl, rfl, rfl⟩
  · have stray : (decide (a ≤ 255) && decide (d ≤ 255)) = false := by
      rw [Bool.and_eq_false_iff, decide_eq_false_iff_not, decide_eq_false_iff_not]
      omega
    exact ⟨assembleLine_of_check_false stray, assembleLine_of_check_false stray⟩
  · rw [assembleLine_showValue]
    exact if_ctx_congr Iff.rfl (fun h => congrArg some (opWords_showFrames h.2 v)) (fun _ => rfl)
  · rw [assembleLine_init]
    exact if_ctx_congr Iff.rfl (fun h => congrArg some (opWords_initFrames h.2)) (fun _ => rfl)

/-! ### Runs with capture and read operations between the words -/

/-- The state a list of operations leaves. -/
def afterAll (ops : List Instr) (s : State) : State := ops.foldl (fun t i => after i t) s

theorem runOps_eq_next_afterAll (ops : List Instr) (s : State) : runOps ops s = .next (afterAll ops s) := by
  induction ops generalizing s with
  | nil => rfl
  | cons i is ih => exact (runOps_cons i is s).trans (ih _)

theorem afterAll_append (is js : List Instr) (s : State) : afterAll (is ++ js) s = afterAll js (afterAll is s) :=
  List.foldl_append

/-- An operation of PC leaves what FR reads and writes alone (R109). -/
theorem frPart_after_of_isPcOp {i : Instr} (s : State) (h : isPcOp i = true) : frPart (after i s) = frPart s := by
  cases i with
  | rdHpc | rdCur | take | tick | line => rfl
  | ovfSvc | edgeSvc => simp only [after_ovfSvc, after_edgeSvc]; split <;> rfl
  | _ => cases h

/-- What an operation of FR leaves depends on what FR reads and writes only (R109). -/
theorem frPart_after_congr {i : Instr} {s t : State} (fr : isFrOp i = true) (h : frPart s = frPart t) :
    frPart (after i s) = frPart (after i t) := by
  cases s with | mk phase
  cases t
  simp only [frPart, Prod.mk.injEq] at h
  obtain ⟨rfl, rfl, rfl, rfl, rfl, rfl, rfl, rfl⟩ := h
  cases i with
  | send | frStep => cases phase <;> rfl
  | _ => cases fr

/-- On a run of FR and PC operations the operations of PC make no difference to the framer (R109). -/
theorem frPart_afterAll_filter {ops : List Instr} {s t : State} (fr : ∀ i ∈ ops.filter (fun i => !isPcOp i), isFrOp i = true)
    (h : frPart s = frPart t) : frPart (afterAll ops s) = frPart (afterAll (ops.filter fun i => !isPcOp i) t) := by
  induction ops generalizing s t with
  | nil => exact h
  | cons i is ih =>
    cases hp : isPcOp i with
    | true =>
      simp only [List.filter_cons, hp] at fr ⊢
      exact ih fr ((frPart_after_of_isPcOp s hp).trans h)
    | false =>
      simp only [List.filter_cons, hp] at fr ⊢
      obtain ⟨first, rest⟩ := List.forall_mem_cons.mp fr
      exact ih rest (frPart_after_congr first h)

/-- The state that frames sent one after another leave a block that is in IDLE in. -/
def sentFrames (fs : List (Byte × Byte)) (s : State) : State := fs.foldl (fun t p => sentFrame p.1 p.2 t) s

/-- The registers that frames sent one after another leave (R112, R130). -/
def writeFrames (fs : List (Byte × Byte)) (m : Memory) : Memory := fs.foldl (fun m p => m.write p.1.toNat p.2) m

theorem afterAll_framesOps (fs : List (Byte × Byte)) {s : State} (idle : s.frPhase = .idle) :
    afterAll (framesOps fs) s = sentFrames fs s := by
  induction fs generalizing s with
  | nil => rfl
  | cons p fs ih =>
    have first : afterAll (frameOps p.1 p.2) s = sentFrame p.1 p.2 s :=
      Host.Outcome.next.inj ((runOps_eq_next_afterAll _ s).symm.trans (runOps_frameOps p.1 p.2 idle))
    rw [framesOps, afterAll_append, first]
    exact ih rfl

theorem sentFrames_dreg (fs : List (Byte × Byte)) (s : State) : (sentFrames fs s).dreg = writeFrames fs s.dreg := by
  induction fs generalizing s with
  | nil => rfl
  | cons p fs ih => exact ih (sentFrame p.1 p.2 s)

theorem isFrOp_of_mem_framesOps {fs : List (Byte × Byte)} {i : Instr} (h : i ∈ framesOps fs) : isFrOp i = true := by
  induction fs with
  | nil => cases h
  | cons p fs ih =>
    rcases List.mem_append.mp h with here | there
    · simp only [frameOps, List.mem_cons, List.not_mem_nil, or_false] at here
      rcases here with rfl | rfl | rfl | rfl | rfl <;> rfl
    · exact ih there

/-- Frames sent with any capture and read operations between their words write their registers in order (R112). -/
theorem dreg_afterAll_frames {fs : List (Byte × Byte)} {ops : List Instr} {s : State} (idle : s.frPhase = .idle)
    (h : ops.filter (fun i => !isPcOp i) = framesOps fs) : (afterAll ops s).dreg = writeFrames fs s.dreg := by
  have same : frPart (afterAll ops s) = frPart (sentFrames fs s) := by
    rw [frPart_afterAll_filter (fun i hi => isFrOp_of_mem_framesOps (h ▸ hi)) rfl, h, afterAll_framesOps fs idle]
  simp only [frPart, Prod.mk.injEq] at same
  obtain ⟨-, -, -, -, -, -, sameDreg, -⟩ := same
  rw [sameDreg, sentFrames_dreg]

/-! ### The registers after frames -/

theorem written_writeFrames_other {fs : List (Byte × Byte)} {a : Nat} (m : Memory) (h : ∀ p ∈ fs, a ≠ p.1.toNat) :
    (writeFrames fs m).written a = m.written a := by
  induction fs generalizing m with
  | nil => rfl
  | cons p fs ih =>
    obtain ⟨first, rest⟩ := List.forall_mem_cons.mp h
    exact (ih _ rest).trans (Memory.written_write_other m _ _ _ first)

/-- Of frames to different addresses each leaves its byte at its address. -/
theorem written_writeFrames_of_mem {fs : List (Byte × Byte)} {a d : Byte} (m : Memory)
    (once : (fs.map fun p => p.1.toNat).Nodup) (h : (a, d) ∈ fs) : (writeFrames fs m).written a.toNat = some d := by
  induction fs generalizing m with
  | nil => cases h
  | cons p fs ih =>
    obtain ⟨fresh, once⟩ := List.nodup_cons.mp once
    rcases List.mem_cons.mp h with rfl | there
    · have later : ∀ q ∈ fs, a.toNat ≠ q.1.toNat := fun q hq e => fresh (List.mem_map.mpr ⟨q, hq, e.symm⟩)
      exact (written_writeFrames_other _ later).trans (Memory.written_write_same m _ d)
    · exact ih _ once there

theorem onlyDocumented_writeFrames {fs : List (Byte × Byte)} {m : Memory} (h : ∀ p ∈ fs, documented p.1.toNat = true)
    (hm : onlyDocumented m = true) : onlyDocumented (writeFrames fs m) = true := by
  induction fs generalizing m with
  | nil => exact hm
  | cons p fs ih =>
    obtain ⟨first, rest⟩ := List.forall_mem_cons.mp h
    refine ih rest ((onlyDocumented_write m _ _).mpr ⟨first, fun k _ => (onlyDocumented_iff m).mp hm k⟩)

theorem read_of_written {m : Memory} {a d : Byte} (h : m.written a.toNat = some d) : m.read a = d := by
  simp [Memory.read, h]

theorem read_congr {m m' : Memory} {a : Byte} (h : m.written a.toNat = m'.written a.toNat) : m.read a = m'.read a := by
  simp [Memory.read, h]

/-- Digit registers that hold the decimal digits of v have the value v modulo 10^n (R145, R146). -/
theorem digitsValue_of_written {m : Memory} {v n : Nat}
    (h : ∀ k < n, m.written (k + 1) = some (BitVec.ofNat 8 (v / 10 ^ k % 10))) : digitsValue m n = some (v % 10 ^ n) := by
  induction n with
  | zero => simp [digitsValue, Nat.mod_one]
  | succ n ih =>
    have digit : v / 10 ^ n % 10 ≤ 9 := by omega
    have lower : digitsValue m n = some (v % 10 ^ n) := ih fun k hk => h k (by omega)
    rw [digitsValue, lower, h n (by omega)]
    simp only [toNat_ofNat_byte (show v / 10 ^ n % 10 ≤ 255 by omega), digit, if_true]
    rw [Nat.mod_pow_succ, Nat.mul_comm (10 ^ n)]

/-! ### INIT and SHOW -/

theorem displayReady_iff (m : Memory) (n : Nat) :
    displayReady m n = true ↔
      m.written 9 = some 255 ∧ m.written 12 = some 1 ∧ m.written 15 = some 0 ∧
        m.written 11 = some (BitVec.ofNat 8 (n - 1)) ∧ m.written 10 = some (BitVec.ofNat 8 n) := by
  simp [displayReady, and_assoc]

theorem initFrames_addresses (n : Nat) : (initFrames n).map Prod.fst = [9, 15, 12, 11, 10] := rfl

theorem fst_mem_of_mem_initFrames {n : Nat} {p : Byte × Byte} (h : p ∈ initFrames n) :
    p.1 ∈ ([9, 15, 12, 11, 10] : List Byte) :=
  initFrames_addresses n ▸ List.mem_map_of_mem h

theorem documented_of_mem_initFrames {n : Nat} {p : Byte × Byte} (h : p ∈ initFrames n) : documented p.1.toNat = true := by
  have all : ∀ a ∈ ([9, 15, 12, 11, 10] : List Byte), documented a.toNat = true := by decide
  exact all p.1 (fst_mem_of_mem_initFrames h)

/-- INIT N leaves the control registers as DISPLAYED(N) asks for them (R86, R234). -/
theorem displayReady_writeFrames_init (m : Memory) (n : Nat) : displayReady (writeFrames (initFrames n) m) n = true := by
  have once : ((initFrames n).map fun p => p.1.toNat).Nodup := by
    change [9, 15, 12, 11, 10].Nodup
    decide
  have sent {a d : Byte} (h : (a, d) ∈ initFrames n) : (writeFrames (initFrames n) m).written a.toNat = some d :=
    written_writeFrames_of_mem m once h
  rw [displayReady_iff]
  refine ⟨sent (a := 9) ?_, sent (a := 12) ?_, sent (a := 15) ?_, sent (a := 11) ?_, sent (a := 10) ?_⟩ <;> simp [initFrames]

/-- INIT N leaves every other register alone (R86). -/
theorem written_writeFrames_init_other (m : Memory) (n : Nat) {k : Byte} (hk : k ∉ ([9, 10, 11, 12, 15] : List Byte)) :
    (writeFrames (initFrames n) m).written k.toNat = m.written k.toNat := by
  refine written_writeFrames_other m fun p hp same => hk ?_
  obtain rfl : k = p.1 := BitVec.eq_of_toNat_eq same
  have reorder : ∀ a ∈ ([9, 15, 12, 11, 10] : List Byte), a ∈ ([9, 10, 11, 12, 15] : List Byte) := by decide
  exact reorder p.1 (fst_mem_of_mem_initFrames hp)

theorem showFrames_address_bounds {v n : Nat} {p : Byte × Byte} (hn : n ≤ 8) (h : p ∈ showFrames v n) :
    1 ≤ p.1.toNat ∧ p.1.toNat ≤ n := by
  rw [showFrames_eq_map] at h
  obtain ⟨k, hk, rfl⟩ := List.mem_map.mp h
  have := List.mem_range.mp hk
  have address : (BitVec.ofNat 8 (k + 1)).toNat = k + 1 := toNat_ofNat_byte (by omega)
  simp only [address]
  omega

theorem showFrames_addresses {n : Nat} (hn : n ≤ 8) (v : Nat) :
    (showFrames v n).map (fun p => p.1.toNat) = (List.range n).map (· + 1) := by
  rw [showFrames_eq_map, List.map_map]
  refine List.map_congr_left fun k hk => toNat_ofNat_byte ?_
  have := List.mem_range.mp hk
  omega

/-- SHOW v, N leaves the k-th decimal digit of v in the k-th digit register (R85, R146). -/
theorem written_writeFrames_show {n k : Nat} (m : Memory) (v : Nat) (hn : n ≤ 8) (hk : k < n) :
    (writeFrames (showFrames v n) m).written (k + 1) = some (BitVec.ofNat 8 (v / 10 ^ k % 10)) := by
  have once : ((showFrames v n).map fun p => p.1.toNat).Nodup := by
    rw [showFrames_addresses hn]
    exact List.nodup_range.map Nat.succ_injective
  have sent : (BitVec.ofNat 8 (k + 1), BitVec.ofNat 8 (v / 10 ^ k % 10)) ∈ showFrames v n := by
    rw [showFrames_eq_map]
    exact List.mem_map.mpr ⟨k, List.mem_range.mpr hk, rfl⟩
  rw [← toNat_ofNat_byte (show k + 1 ≤ 255 by omega)]
  exact written_writeFrames_of_mem m once sent

theorem written_writeFrames_show_other {n a : Nat} (m : Memory) (v : Nat) (hn : n ≤ 8) (ha : a = 0 ∨ n < a) :
    (writeFrames (showFrames v n) m).written a = m.written a :=
  written_writeFrames_other m fun p hp => by
    have := showFrames_address_bounds hn hp
    omega

theorem displayReady_writeFrames_show {n : Nat} (m : Memory) (v : Nat) (hn : n ≤ 8) :
    displayReady (writeFrames (showFrames v n) m) n = displayReady m n := by
  have kept {a : Nat} (ha : 8 < a) := written_writeFrames_show_other m v hn (.inr (show n < a by omega))
  simp only [displayReady, kept (show 8 < 9 by decide), kept (show 8 < 10 by decide), kept (show 8 < 11 by decide),
    kept (show 8 < 12 by decide), kept (show 8 < 15 by decide)]

/-- After SHOW v, N on a display that INIT N has prepared, DISPLAYED(N) is v mod 10^N (R146). -/
theorem displayed_writeFrames_show {n : Nat} {m : Memory} (v : Nat) (h1 : 1 ≤ n) (hn : n ≤ 8)
    (ready : displayReady m n = true) (known : onlyDocumented m = true) :
    displayed (writeFrames (showFrames v n) m) n = some (v % 10 ^ n) := by
  have addresses : ∀ p ∈ showFrames v n, documented p.1.toNat = true := fun p hp => by
    have := showFrames_address_bounds hn hp
    simp [documented]
    omega
  have digits := digitsValue_of_written fun k hk => written_writeFrames_show m v hn hk
  simp [displayed, h1, hn, displayReady_writeFrames_show m v hn, ready, onlyDocumented_writeFrames addresses known, digits]

/-- Settles O56: the registers are the ones INIT's and SHOW's frames write, whatever PC does between their words. -/
theorem initPreparesTheDisplay : Obligations.InitPreparesTheDisplay := by
  refine ⟨fun n ops s h1 hn idle hops => ?_, fun v n ops s h1 hn idle known hops => ?_⟩
  · refine ⟨_, runOps_eq_next_afterAll ops s, ?_⟩
    rw [dreg_afterAll_frames idle hops]
    have ready := displayReady_writeFrames_init s.dreg n
    obtain ⟨w9, w12, w15, w11, w10⟩ := (displayReady_iff _ n).mp ready
    refine ⟨ready, read_of_written w9, read_of_written w15, read_of_written w12, ?_, ?_, fun k hk => ?_⟩
    · rw [read_of_written (a := 11) w11, toNat_ofNat_byte (by omega)]
    · rw [read_of_written (a := 10) w10, toNat_ofNat_byte (by omega)]
    · have kept := written_writeFrames_init_other s.dreg n hk
      exact ⟨read_congr kept, kept⟩
  · refine ⟨_, runOps_eq_next_afterAll ops s, ?_⟩
    rw [dreg_afterAll_frames idle hops, writeFrames, List.foldl_append]
    exact displayed_writeFrames_show v h1 hn (displayReady_writeFrames_init s.dreg n)
      (onlyDocumented_writeFrames (fun _ => documented_of_mem_initFrames) known)

end Sys2Proof.Machine
end

