-- ==== Sys2Proof/Proofs/Framer.lean ====
section
/-! PROOFS. The statements about the framer (40_framer.md). Frames never overlap, by the link the transcript leaves; the framer and
the capture unit are independent, by `withCapture`, which puts the two sides of a state together; a frame under any interleaving, by
`sameFramer_afterAll`; a frame in progress ends, by the FR_STEPs it still needs (`stepsToIdle`). -/

namespace Sys2Proof.Machine

/-! ### One operation of the framer -/

/-- Settles O11: SEND starts the frame in IDLE, and otherwise the request joins HOST's held requests. -/
theorem sendStartsAFrameOrHolds : Obligations.SendStartsAFrameOrHolds := by
  refine fun a d s => ⟨fun idle => ?_, fun busy => ?_⟩
  · have free : frBusy s = false := (frBusy_eq_false_iff s).mpr idle
    simp [exec_eq_next_after, free, startFrame_eq]
  · have taken : frBusy s = true := by simpa [frBusy] using busy
    refine ⟨holdSend a d s, by simp [exec_eq_next_after, taken], rfl, by simp, fun q hq => ?_⟩
    simp [hq]

theorem stepFrame_of_idle {s : State} (h : s.frPhase = .idle) : stepFrame s = s := by
  simpa [h] using stepFrame_cases s

/-- Settles O13, phase by phase. -/
theorem frStepAdvancesTheFrame : Obligations.FrStepAdvancesTheFrame := by
  intro s
  simp only [exec_eq_next_after, after_frStep, Host.Outcome.next.injEq]
  refine ⟨stepFrame_of_idle, stepFrame_of_addr, stepFrame_of_gap, stepFrame_of_data, fun p => ⟨_, rfl, ?_⟩⟩
  rw [stepFrame_of_endPhase p]
  exact ⟨rfl, (emit_csRise_dreg s).symm⟩

theorem enabled_frStep_iff (s : State) : enabled .frStep s = true ↔ s.frPhase ≠ .idle := by
  simp [enabled, frBusy]

/-- Settles O43: the invariant has TC = 1 in both phases, and both are busy. -/
theorem waitsFindTransferComplete : Obligations.WaitsFindTransferComplete := by
  rintro s ⟨-, htc, -, -⟩ phase
  rw [enabled_frStep_iff]
  rcases phase with p | p
  · exact ⟨by simpa only [tcOk, p] using htc, by simp [p]⟩
  · exact ⟨by simpa only [tcOk, p] using htc, by simp [p]⟩

/-! ### The wire -/

/-- Settles O32: each effect an operation can have on the framer appends at most one event. -/
theorem onlyThreeOperationsTouchTheWire : Obligations.OnlyThreeOperationsTouchTheWire := by
  intro i s t hx
  cases framerStep_of_exec hx with
  | keep same => exact .inl same.wire
  | send a d idle => exact .inr (.inl ⟨⟨a, d, rfl⟩, rfl⟩)
  | frStep => rcases stepFrame_cases s with ⟨-, e⟩ | ⟨-, e⟩ | ⟨-, e⟩ | ⟨-, e⟩ | ⟨-, e⟩ <;> simp [e]
  | reset l =>
    cases hc : s.csN with
    | true => simp [closeFrame_of_released hc]
    | false => simp [closeFrame_of_asserted hc]
  | command a d receiver => exact .inl rfl

theorem linkFrom_cons_eq_some_iff {l l' : Link} {e : WireEvent} {es : List WireEvent} :
    linkFrom l (e :: es) = some l' ↔ ∃ m, linkStep l e = some m ∧ linkFrom m es = some l' := by
  cases h : linkStep l e <;> simp [linkFrom, h]

/-- After a CS_FALL of a transcript that keeps the wire laws the link is open with no byte sent. -/
theorem linkFrom_opened_of_csFall {l l' : Link} {before rest : List WireEvent}
    (h : linkFrom l (before ++ .csFall :: rest) = some l') : linkFrom (.opened []) rest = some l' := by
  induction before generalizing l with
  | nil =>
    obtain ⟨m, fall, hrest⟩ := linkFrom_cons_eq_some_iff.mp h
    cases l with
    | closed => cases fall; exact hrest
    | opened bs => cases fall
  | cons e es ih =>
    obtain ⟨m, -, hrest⟩ := linkFrom_cons_eq_some_iff.mp h
    exact ih hrest

/-- An open link takes its next CS_FALL only after a CS_RISE (R105). -/
theorem csRise_mem_of_linkFrom_opened {bs : List Byte} {l' : Link} {mid rest : List WireEvent}
    (h : linkFrom (.opened bs) (mid ++ .csFall :: rest) = some l') : .csRise ∈ mid := by
  induction mid generalizing bs with
  | nil => cases h
  | cons e es ih =>
    obtain ⟨m, stepped, hrest⟩ := linkFrom_cons_eq_some_iff.mp h
    cases e with
    | csFall => cases stepped
    | csRise => exact List.mem_cons_self
    | byte b =>
      simp only [linkStep, Option.ite_none_right_eq_some, Option.some.injEq] at stepped
      obtain ⟨-, rfl⟩ := stepped
      exact List.mem_cons_of_mem _ (ih hrest)

/-- Settles O31: the transcript of a state with the invariant keeps the wire laws, and chip-select follows the phase (R41). -/
theorem framesNeverOverlap : Obligations.FramesNeverOverlap := by
  rintro s ⟨hcs, -, hlink, -⟩
  refine ⟨fun before mid rest hw => ?_, ?_⟩
  · rw [hw] at hlink
    exact csRise_mem_of_linkFrom_opened (linkFrom_opened_of_csFall hlink)
  · rw [Ne, ← (csOk_iff s).mp hcs, Bool.not_eq_true]

/-! ### The bits of the wire -/

theorem bitsOfByte_msbFirst (b : Byte) : bitsOfByte .msbFirst b = (List.range 8).map fun k => b.getLsbD (7 - k) := rfl

theorem wireBits_append (o : BitOrder) (w v : List WireEvent) : wireBits o (w ++ v) = wireBits o w ++ wireBits o v := by
  induction w with
  | nil => rfl
  | cons e es ih => cases e <;> simp [wireBits, ih]

/-- Settles O59: the order of the bits is read off the byte's list of bits, and a frame's two edges carry none. -/
theorem bitsGoMostSignificantFirst : Obligations.BitsGoMostSignificantFirst := by
  refine ⟨fun b k hk => ?_, fun b => rfl, fun s a d => ?_⟩
  · simp [Config.serBitOrder, bitsOfByte_msbFirst, List.getElem?_range hk]
  · simp [serialBits, Config.serBitOrder, wireBits_append, wireBits]

/-! ### The framer and the capture unit -/

/-- The state whose capture unit and responses are those of p, and whose every other element is that of s. -/
def withCapture (p s : State) : State :=
  { s with
    tmr := p.tmr, ovfPend := p.ovfPend, ovc := p.ovc, line := p.line, edgePend := p.edgePend, cur := p.cur, hps := p.hps,
    hpc := p.hpc, resp := p.resp }

theorem withCapture_self (s : State) : withCapture s s = s := rfl

theorem pcPart_withCapture (p s : State) : pcPart (withCapture p s) = pcPart p := rfl

theorem withCapture_congr {p p' : State} (h : pcPart p = pcPart p') (s : State) : withCapture p s = withCapture p' s := by
  simp only [pcPart, Prod.mk.injEq] at h
  simp only [withCapture, h]

/-- An operation of FR neither reads nor writes the capture unit (R109). -/
theorem after_withCapture_of_isFrOp {i : Instr} (h : isFrOp i = true) (p s : State) :
    after i (withCapture p s) = withCapture p (after i s) := by
  cases i with
  | send a d =>
    simp only [after_send, apply_ite (withCapture p)]
    rfl
  | frStep =>
    simp only [after_frStep]
    cases phase : s.frPhase <;> simp only [stepFrame, frameEvent, withCapture, phase] <;> rfl
  | _ => cases h

/-- An operation of PC reads and writes the capture unit only (R109). -/
theorem after_withCapture_of_isPcOp {j : Instr} (h : isPcOp j = true) (p s : State) :
    after j (withCapture p s) = withCapture (after j p) s := by
  cases j with
  | rdHpc | rdCur | take | tick | line => rfl
  | ovfSvc | edgeSvc =>
    simp only [after_ovfSvc, after_edgeSvc, apply_ite (withCapture · s)]
    rfl
  | _ => cases h

theorem pcPart_after_of_isFrOp {i : Instr} (s : State) (h : isFrOp i = true) : pcPart (after i s) = pcPart s :=
  calc pcPart (after i s) = pcPart (withCapture s (after i s)) := by rw [← after_withCapture_of_isFrOp h, withCapture_self]
    _ = pcPart s := pcPart_withCapture _ _

/-- What an operation of PC leaves in the capture unit depends on the capture unit only (R109). -/
theorem pcPart_after_congr {j : Instr} {s s' : State} (pc : isPcOp j = true) (h : pcPart s = pcPart s') :
    pcPart (after j s) = pcPart (after j s') :=
  calc pcPart (after j s) = pcPart (after j (withCapture s s)) := by rw [withCapture_self]
    _ = pcPart (after j (withCapture s' s)) := by rw [withCapture_congr h]
    _ = pcPart (after j s') := by rw [after_withCapture_of_isPcOp pc, pcPart_withCapture]

/-- Both orders of an operation of FR and one of PC leave FR's side from the one and PC's side from the other (R109). -/
theorem after_comm {i j : Instr} (fr : isFrOp i = true) (pc : isPcOp j = true) (s : State) :
    after j (after i s) = after i (after j s) := by
  have capture : after j s = withCapture (after j s) s := after_withCapture_of_isPcOp pc s s
  have framer : after i s = withCapture s (after i s) := after_withCapture_of_isFrOp fr s s
  calc after j (after i s) = withCapture (after j s) (after i s) := by rw [framer, after_withCapture_of_isPcOp pc]; rfl
    _ = after i (after j s) := by rw [capture, after_withCapture_of_isFrOp fr]; rfl

/-- Settles O36: neither unit's operations reach the other's side of the state. -/
theorem framerAndCaptureAreIndependent : Obligations.FramerAndCaptureAreIndependent := by
  intro i j fr pc
  simp only [exec_eq_next_iff, runOps_cons, runOps_nil, Host.Outcome.next.injEq]
  refine ⟨?_, ?_, ?_, ?_, after_comm fr pc⟩
  · rintro s _ rfl
    exact pcPart_after_of_isFrOp s fr
  · rintro s _ rfl
    exact frPart_after_of_isPcOp s pc
  · rintro s s' _ _ h rfl rfl
    exact frPart_after_congr fr h
  · rintro s s' _ _ h rfl rfl
    exact pcPart_after_congr pc h

/-! ### A frame in progress -/

/-- How many FR_STEPs a frame in this phase still needs (R101). -/
def stepsToIdle : Phase → Nat
  | .idle => 0
  | .addr => 4
  | .gap => 3
  | .data => 2
  | .endPhase => 1

theorem stepsToIdle_nextPhase (p : Phase) : stepsToIdle (nextPhase p) = stepsToIdle p - 1 := by
  cases p <;> rfl

theorem stepsToIdle_pos_iff (p : Phase) : 0 < stepsToIdle p ↔ p ≠ .idle := by
  cases p <;> simp [stepsToIdle]

@[simp] theorem stepFrame_frPhase (s : State) : (stepFrame s).frPhase = nextPhase s.frPhase := rfl

/-- FR_STEP reads the framer, the wire and the display registers only. -/
theorem SameFramer.stepFrame {v u : State} (h : SameFramer v u) : SameFramer (stepFrame v) (stepFrame u) := by
  cases v
  cases u with | mk phase
  obtain ⟨rfl, rfl, rfl, rfl, rfl, rfl, rfl⟩ := h
  cases phase <;> exact ⟨rfl, rfl, rfl, rfl, rfl, rfl, rfl⟩

theorem SameFramer.trans {s t u : State} (h : SameFramer s t) (h' : SameFramer t u) : SameFramer s u where
  frPhase := h'.frPhase.trans h.frPhase
  csN := h'.csN.trans h.csN
  tc := h'.tc.trans h.tc
  frAddr := h'.frAddr.trans h.frAddr
  frData := h'.frData.trans h.frData
  wire := h'.wire.trans h.wire
  dreg := h'.dreg.trans h.dreg

/-- While a frame is in progress only FR_STEP and RESET act on it: a further SEND holds (R100, R107). -/
theorem sameFramer_of_busy {i : Instr} {s t : State} (hx : exec i s = .next t) (busy : s.frPhase ≠ .idle)
    (block : isBlockOp i = true) (noReset : i ≠ .reset) (noStep : i ≠ .frStep) : SameFramer s t := by
  cases framerStep_of_exec hx with
  | keep same => exact same
  | send a d idle => exact absurd idle busy
  | frStep => exact absurd rfl noStep
  | reset l => exact absurd rfl noReset
  | command a d receiver => rw [receiver] at block; cases block

/-- A frame in progress advances by the FR_STEPs of a run without RESET, as long as they do not end it, whatever else the run
holds (R107). -/
theorem sameFramer_afterAll {ops : List Instr} {v u : State} (hops : ∀ i ∈ ops, isBlockOp i = true ∧ i ≠ .reset)
    (few : frStepCount ops < stepsToIdle v.frPhase) (same : SameFramer v u) :
    SameFramer (stepFrame^[frStepCount ops] v) (afterAll ops u) := by
  induction ops generalizing v u with
  | nil => exact same
  | cons i is ih =>
    obtain ⟨⟨block, noReset⟩, rest⟩ := List.forall_mem_cons.mp hops
    by_cases isStep : i = .frStep
    · subst isStep
      have fewRest : frStepCount is < stepsToIdle (stepFrame v).frPhase := by
        simp only [frStepCount, if_true] at few
        rw [stepFrame_frPhase, stepsToIdle_nextPhase]
        omega
      exact ih rest fewRest same.stepFrame
    · have busy : u.frPhase ≠ .idle := by
        rw [same.frPhase, ← stepsToIdle_pos_iff]
        omega
      simp only [frStepCount, isStep, if_false, Nat.add_zero] at few ⊢
      exact ih rest few (same.trans (sameFramer_of_busy (exec_eq_next_after i u) busy block noReset isStep))

/-- Four FR_STEPs send the frame that a SEND in IDLE has started. -/
theorem iterate_stepFrame_startFrame (a d : Byte) {s : State} (idle : s.frPhase = .idle) :
    stepFrame^[4] (startFrame a d s) = sentFrame a d s := by
  have sent := runOps_frameOps a d idle
  simpa [frameOps, (frBusy_eq_false_iff s).mpr idle] using sent

/-- Settles O40: three of the four FR_STEPs fall among the other operations and the fourth ends the frame. -/
theorem frameLawUnderInterleaving : Obligations.FrameLawUnderInterleaving := by
  intro a d between s idle hops three
  have started : after (.send a d) s = startFrame a d s := by
    rw [after_send, (frBusy_eq_false_iff s).mpr idle]
    rfl
  have few : frStepCount between < stepsToIdle (startFrame a d s).frPhase := by
    rw [three]
    exact Nat.lt_succ_self 3
  have sent : SameFramer (sentFrame a d s) (stepFrame (afterAll between (startFrame a d s))) := by
    have closing := (sameFramer_afterAll hops few ⟨rfl, rfl, rfl, rfl, rfl, rfl, rfl⟩).stepFrame
    rwa [three, ← Function.iterate_succ_apply' stepFrame 3, iterate_stepFrame_startFrame a d idle] at closing
  refine ⟨stepFrame (afterAll between (startFrame a d s)), ?_, sent.wire, sent.frPhase, sent.csN, sent.tc, sent.dreg⟩
  rw [runOps_cons, started, runOps_eq_next_afterAll, afterAll_append]
  rfl

/-! ### Frames one after another -/

/-- Frames sent with any capture and read operations between their words leave the framer's side of the state as the frames alone
do (R109, R112). -/
theorem frPart_afterAll_frames {fs : List (Byte × Byte)} {ops : List Instr} {s : State} (idle : s.frPhase = .idle)
    (h : ops.filter (fun i => !isPcOp i) = framesOps fs) : frPart (afterAll ops s) = frPart (sentFrames fs s) := by
  have alone := frPart_afterAll_filter (ops := ops) (s := s) (t := s) (fun i hi => isFrOp_of_mem_framesOps (h ▸ hi)) rfl
  rw [alone, h, afterAll_framesOps fs idle]

theorem sentFrames_frPhase (fs : List (Byte × Byte)) {s : State} (idle : s.frPhase = .idle) :
    (sentFrames fs s).frPhase = .idle := by
  induction fs generalizing s with
  | nil => exact idle
  | cons p fs ih => exact ih (s := sentFrame p.1 p.2 s) rfl

theorem sentFrames_held (fs : List (Byte × Byte)) (s : State) : (sentFrames fs s).held = s.held := by
  induction fs generalizing s with
  | nil => rfl
  | cons p fs ih => exact ih (sentFrame p.1 p.2 s)

theorem sentFrames_wire (fs : List (Byte × Byte)) (s : State) :
    (sentFrames fs s).wire = s.wire ++ fs.flatMap fun p => [.csFall, .byte p.1, .byte p.2, .csRise] := by
  induction fs generalizing s with
  | nil => exact (List.append_nil _).symm
  | cons p fs ih =>
    refine (ih (sentFrame p.1 p.2 s)).trans ?_
    rw [List.flatMap_cons, ← List.append_assoc]
    rfl

/-- Settles O41: the framer's side of the state is that of the frames alone, and each frame appends its events and its write. -/
theorem frameSequenceLaw : Obligations.FrameSequenceLaw := by
  intro fs ops s idle hops
  have same := frPart_afterAll_frames idle hops
  simp only [frPart, Prod.mk.injEq] at same
  obtain ⟨hp, -, -, -, -, hw, hm, hh⟩ := same
  refine ⟨afterAll ops s, runOps_eq_next_afterAll ops s, ?_, ?_, ?_, ?_⟩
  · rw [hp, sentFrames_frPhase fs idle]
  · rw [hh, sentFrames_held]
  · rw [hw, sentFrames_wire]
  · rw [hm, sentFrames_dreg, writeFrames]

/-! ### A frame in progress ends -/

/-- No operation sets a frame in progress back (R20, R101). -/
theorem stepsToIdle_le_of_exec {i : Instr} {s t : State} (hx : exec i s = .next t) (busy : s.frPhase ≠ .idle) :
    stepsToIdle t.frPhase ≤ stepsToIdle s.frPhase := by
  cases framerStep_of_exec hx with
  | keep same => rw [same.frPhase]
  | send a d idle => exact absurd idle busy
  | frStep =>
    rw [stepFrame_frPhase, stepsToIdle_nextPhase]
    omega
  | reset l => exact Nat.zero_le _
  | command a d receiver => exact Nat.le_refl _

section
variable {σ : Nat → Instr} {s : State}

/-- A frame that stays in progress from n on is never set back. -/
theorem stepsToIdle_trajectory_le {n m : Nat} (busy : ∀ k, n ≤ k → (trajectory σ s k).frPhase ≠ .idle) (hm : n ≤ m) :
    stepsToIdle (trajectory σ s m).frPhase ≤ stepsToIdle (trajectory σ s n).frPhase := by
  induction m, hm using Nat.le_induction with
  | base => exact Nat.le_refl _
  | succ m hm ih => exact (stepsToIdle_le_of_exec (exec_eq_next_after (σ m) _) (busy m hm)).trans ih

/-- Under weak fairness a frame that stays in progress from n on is, at some later point, closer to its end. -/
theorem exists_stepsToIdle_trajectory_lt {n : Nat} (fair : WeaklyFair .frStep σ s)
    (busy : ∀ k, n ≤ k → (trajectory σ s k).frPhase ≠ .idle) :
    ∃ m, n ≤ m ∧ stepsToIdle (trajectory σ s m).frPhase < stepsToIdle (trajectory σ s n).frPhase := by
  obtain ⟨m, hm, taken | disabled⟩ := fair n
  · refine ⟨m + 1, by omega, ?_⟩
    have kept := stepsToIdle_trajectory_le busy hm
    have positive := (stepsToIdle_pos_iff _).mpr (busy m hm)
    rw [trajectory, taken, after_frStep, stepFrame_frPhase, stepsToIdle_nextPhase]
    omega
  · rw [(enabled_frStep_iff _).mpr (busy m hm)] at disabled
    cases disabled

/-- A frame cannot stay in progress for ever under weak fairness, by induction on the FR_STEPs it still needs. -/
theorem not_busy_forever (fair : WeaklyFair .frStep σ s) (n : Nat) :
    ¬ ∀ k, n ≤ k → (trajectory σ s k).frPhase ≠ .idle := by
  induction h : stepsToIdle (trajectory σ s n).frPhase using Nat.strong_induction_on generalizing n with
  | _ r ih =>
    subst h
    intro busy
    obtain ⟨m, hm, closer⟩ := exists_stepsToIdle_trajectory_lt fair busy
    exact ih _ closer m rfl fun k hk => busy k (hm.trans hk)

end

/-- Settles O44: a frame that never reached IDLE would be in progress for ever. -/
theorem fairFramerReachesIdle : Obligations.FairFramerReachesIdle := by
  intro σ s fair n
  by_contra never
  exact not_busy_forever fair n fun k hk idle => never ⟨k, hk, idle⟩

end Sys2Proof.Machine
end

