-- ==== Sys2Proof/Proofs/Display.lean ====
section
/-! PROOFS. The statements about the display frames (41_display_frames.md). What the receiver makes of the bytes since a CS_FALL is
`rxBytes_since_csFall`; a frame command is the receiver's write at its address (`exec_of_commandOf`); DISPLAYED is read off the
registers that frames have written (`displayed_eq_some_iff`, `digitsValue_eq_some_iff`). -/

namespace Sys2Proof.Machine

/-! ### The receiver -/

theorem rxFrom_map_byte (acc bs : List Byte) : rxFrom acc (bs.map .byte) = acc ++ bs := by
  induction bs generalizing acc with
  | nil => exact (List.append_nil acc).symm
  | cons b bs ih => exact (ih (acc ++ [b])).trans (List.append_assoc acc [b] bs)

/-- A CS_FALL starts RX anew (R130). -/
theorem rxBytes_since_csFall (before : List WireEvent) (rx : List Byte) :
    rxBytes (before ++ .csFall :: rx.map .byte) = rx := by
  rw [rxBytes, rxFrom_append, rxFrom, rxFrom_map_byte, List.nil_append]

theorem rxWrite_of_ne_pair {rx : List Byte} (m : Memory) (h : ∀ a d, rx ≠ [a, d]) : rxWrite rx m = m := by
  unfold rxWrite
  split
  next a d => exact absurd rfl (h a d)
  next => rfl

/-- Settles O14: at a CS_RISE the receiver acts on the bytes since the last CS_FALL, and at no other event. -/
theorem receiverWritesAtCsRise : Obligations.ReceiverWritesAtCsRise := by
  intro s before rx hw
  have written : (emit .csRise s).dreg = rxWrite rx s.dreg := by
    rw [emit_csRise_dreg, hw, rxBytes_since_csFall]
  refine ⟨emit_wire _ s, ?_, fun other => ?_, emit_csFall_dreg s, fun b => emit_byte_dreg b s⟩
  · rintro a d rfl
    rw [written, rxWrite_pair]
    exact setsRegister_write s.dreg a d
  · rw [written, rxWrite_of_ne_pair s.dreg other]

/-! ### Frame commands -/

/-- A frame command is the receiver's write at its own address (R75, R131 to R143). -/
theorem exec_of_commandOf {a d : Byte} {i : Instr} (h : commandOf a d = some i) (s : State) :
    exec i s = .next (frameWrite a d s) := by
  unfold commandOf at h
  iterate 13
    obtain ⟨rfl, command⟩ | ⟨-, h⟩ := ite_eq_iff.mp h
    · cases command
      rfl
  cases h

/-- A frame sent from IDLE with any capture and read operations between its words sets its register and no other (R107, R130). -/
theorem frame_sets_register {a d : Byte} {ops : List Instr} {s : State} (idle : s.frPhase = .idle)
    (hops : ops.filter (fun i => !isPcOp i) = frameOps a d) :
    ∃ t, runOps ops s = .next t ∧ SetsRegister s.dreg t.dreg a d := by
  obtain ⟨t, run, -, -, -, dreg⟩ := frameSequenceLaw [(a, d)] ops s idle hops
  exact ⟨t, run, dreg ▸ setsRegister_write s.dreg a d⟩

/-- The command of an address, and the frame that carries it, write the register at that address and nothing else. -/
theorem command_and_frame_set_register {a d : Byte} {i : Instr} (h : commandOf a d = some i) (s : State) :
    (∃ t, exec i s = .next t ∧ t = { s with dreg := t.dreg } ∧ SetsRegister s.dreg t.dreg a d) ∧
    (s.frPhase = .idle → ∀ ops, ops.filter (fun i => !isPcOp i) = frameOps a d →
      ∃ t, runOps ops s = .next t ∧ SetsRegister s.dreg t.dreg a d) :=
  ⟨⟨frameWrite a d s, exec_of_commandOf h s, rfl, setsRegister_write s.dreg a d⟩, fun idle _ hops => frame_sets_register idle hops⟩

/-- Settles O15: addresses 1 to 8 select the digit commands. -/
theorem digitCommandsWriteTheirRegister : Obligations.DigitCommandsWriteTheirRegister := by
  intro d s p hp
  have command : commandOf p.2 d = some p.1 := by
    fin_cases hp <;> rfl
  exact command_and_frame_set_register command s

/-- Settles O16: addresses 9 to 12 and 15 select the control commands. -/
theorem controlCommandsWriteTheirRegister : Obligations.ControlCommandsWriteTheirRegister := by
  intro d s p hp
  have command : commandOf p.2 d = some p.1 := by
    fin_cases hp <;> rfl
  exact command_and_frame_set_register command s

/-- Settles O17: FR_STEP out of END hands the frame's two bytes to the receiver, and their write is the command's meaning. -/
theorem closedFrameRunsItsCommand : Obligations.ClosedFrameRunsItsCommand := by
  intro s before a d i closing hw hi
  have rx : rxBytes s.wire = [a, d] := hw ▸ rxBytes_since_csFall before [a, d]
  rw [decodeFrame_frameOf] at hi
  rw [exec_of_commandOf hi, exec_eq_next_after, after_frStep, stepFrame_of_endPhase closing, rx]
  rfl

/-- Settles O53: no command has a reserved address, and the frame's events and its write do not depend on the address. -/
theorem reservedAddressesAreSentAndStored : Obligations.ReservedAddressesAreSentAndStored := by
  intro a d s ha idle
  have reserved : addrReserved a = true := by simpa [addrReserved, or_assoc] using ha
  refine ⟨?_, sentFrame a d s, runOps_frameOps a d idle, rfl, setsRegister_write s.dreg a d⟩
  rw [decodeFrame_frameOf, commandOf_of_reserved d reserved]

/-! ### DISPLAYED -/

theorem documented_iff (k : Nat) : documented k = true ↔ (1 ≤ k ∧ k ≤ 12) ∨ k = 15 := by
  simp [documented]

/-- A byte that counts is one that a frame has written, and then it is the register's value (R232). -/
theorem written_eq_some_iff (m : Memory) (a d : Byte) :
    m.written a.toNat = some d ↔ m.read a = d ∧ m.written a.toNat ≠ none := by
  cases h : m.written a.toNat <;> simp [Memory.read, h]

/-- The control registers are as INIT N leaves them when they have these values and frames have written them (R232, R234). -/
theorem displayReady_iff_read (m : Memory) (n : Nat) :
    displayReady m n = true ↔
      m.read 9 = 255 ∧ m.read 12 = 1 ∧ m.read 15 = 0 ∧ m.read 11 = BitVec.ofNat 8 (n - 1) ∧ m.read 10 = BitVec.ofNat 8 n ∧
        ∀ k ∈ [9, 10, 11, 12, 15], m.written k ≠ none := by
  have w9 := written_eq_some_iff m 9 255
  have w10 := written_eq_some_iff m 10 (BitVec.ofNat 8 n)
  have w11 := written_eq_some_iff m 11 (BitVec.ofNat 8 (n - 1))
  have w12 := written_eq_some_iff m 12 1
  have w15 := written_eq_some_iff m 15 0
  simp only [BitVec.reduceToNat] at w9 w10 w11 w12 w15
  rw [displayReady_iff, w9, w10, w11, w12, w15]
  simp only [List.forall_mem_cons, List.not_mem_nil, false_imp_iff, implies_true, and_true]
  simp only [and_assoc, and_left_comm, and_comm]

theorem displayed_eq_some_iff (m : Memory) {n : Nat} (x : Nat) (h1 : 1 ≤ n) (hn : n ≤ 8) :
    displayed m n = some x ↔ displayReady m n = true ∧ onlyDocumented m = true ∧ digitsValue m n = some x := by
  simp [displayed, h1, hn, and_assoc]

theorem digitsValue_succ_eq_some_iff (m : Memory) (n x : Nat) :
    digitsValue m (n + 1) = some x ↔
      ∃ v d, digitsValue m n = some v ∧ m.written (n + 1) = some d ∧ d.toNat ≤ 9 ∧ x = v + d.toNat * 10 ^ n := by
  rw [digitsValue]
  cases digitsValue m n <;> cases m.written (n + 1) <;> simp [eq_comm]

/-- The value of the digits is defined when each is written and in 0..9, and it is then their decimal value (R145, R232). -/
theorem digitsValue_eq_some_iff (m : Memory) {n : Nat} (x : Nat) (hn : n ≤ 255) :
    digitsValue m n = some x ↔
      (∀ k, 1 ≤ k → k ≤ n → (m.read (BitVec.ofNat 8 k)).toNat ≤ 9 ∧ m.written k ≠ none) ∧
      x = ∑ k ∈ Finset.range n, (m.read (BitVec.ofNat 8 (k + 1))).toNat * 10 ^ k := by
  induction n generalizing x with
  | zero =>
    exact ⟨fun h => ⟨fun k l u => absurd u (by omega), (Option.some.inj h).symm⟩, fun ⟨_, h⟩ => congrArg some h.symm⟩
  | succ n ih =>
    have address : (BitVec.ofNat 8 (n + 1)).toNat = n + 1 := toNat_ofNat_byte hn
    have counts (d : Byte) := address ▸ written_eq_some_iff m (BitVec.ofNat 8 (n + 1)) d
    rw [digitsValue_succ_eq_some_iff, Finset.sum_range_succ]
    constructor
    · rintro ⟨v, d, lower, hw, digit, rfl⟩
      obtain ⟨below, rfl⟩ := (ih v (by omega)).mp lower
      obtain ⟨rfl, isWritten⟩ := (counts d).mp hw
      refine ⟨fun k h1 hk => ?_, rfl⟩
      rcases Nat.le_succ_iff.mp hk with hk | rfl
      · exact below k h1 hk
      · exact ⟨digit, isWritten⟩
    · rintro ⟨all, rfl⟩
      obtain ⟨digit, isWritten⟩ := all (n + 1) (by omega) (by omega)
      have below := (ih _ (by omega)).mpr ⟨fun k h1 hk => all k h1 (by omega), rfl⟩
      exact ⟨_, _, below, (counts _).mpr ⟨rfl, isWritten⟩, digit, rfl⟩

/-- Settles O54: DISPLAYED(N) asks for the control registers, the addresses and the digits, each of them as frames have written
it. -/
theorem displayedIsTheDigitsValue : Obligations.DisplayedIsTheDigitsValue := by
  intro m n x h1 hn
  rw [displayed_eq_some_iff m x h1 hn, displayReady_iff_read, onlyDocumented_iff, digitsValue_eq_some_iff m x (by omega)]
  simp only [documented_iff]
  constructor
  · rintro ⟨⟨r9, r12, r15, r11, r10, controls⟩, known, digits, value⟩
    refine ⟨r9, r12, r15, r11, r10, fun k l u => (digits k l u).1, ?_, known, value⟩
    rintro k (control | ⟨l, u⟩)
    · exact controls k control
    · exact (digits k l u).2
  · rintro ⟨r9, r12, r15, r11, r10, digits, isWritten, known, value⟩
    exact ⟨⟨r9, r12, r15, r11, r10, fun k h => isWritten k (.inl h)⟩, known,
      fun k l u => ⟨digits k l u, isWritten k (.inr ⟨l, u⟩)⟩, value⟩

/-! ### SHOW -/

/-- Where DISPLAYED(N) is defined after SHOW v, N it is v mod 10^N (R146). -/
theorem eq_mod_of_displayed_writeFrames_show {m : Memory} {v n x : Nat} (h1 : 1 ≤ n) (hn : n ≤ 8)
    (h : displayed (writeFrames (showFrames v n) m) n = some x) : x = v % 10 ^ n := by
  obtain ⟨-, -, value⟩ := (displayed_eq_some_iff _ x h1 hn).mp h
  exact Option.some.inj (value.symm.trans (digitsValue_of_written fun k hk => written_writeFrames_show m v hn hk))

/-- Settles O55: the registers are the ones SHOW's frames write, whatever PC does between their words. -/
theorem showWritesTheDecimalDigits : Obligations.ShowWritesTheDecimalDigits := by
  intro v n ops s h1 hn idle hops
  obtain ⟨t, run, phase, -, -, dreg⟩ := frameSequenceLaw (showFrames v n) ops s idle hops
  replace dreg : t.dreg = writeFrames (showFrames v n) s.dreg := dreg
  refine ⟨t, run, phase, ?_⟩
  rw [dreg]
  refine ⟨fun k l u => ?_, fun k outside => ?_, fun x => eq_mod_of_displayed_writeFrames_show h1 hn,
    displayed_writeFrames_show v h1 hn⟩
  · have sent := written_writeFrames_show s.dreg v hn (show k.toNat - 1 < n by omega)
    rw [Nat.sub_add_cancel l] at sent
    rw [read_of_written sent]
    exact ⟨toNat_ofNat_byte (by omega), sent⟩
  · have kept := written_writeFrames_show_other s.dreg v hn outside
    exact ⟨read_congr kept, kept⟩

end Sys2Proof.Machine
end

