-- ==== Sys2Proof/Proofs/Capture.lean ====
section
/-! PROOFS. The statements about period capture (42_capture.md). What each operation does to the capture unit stands first, with its
cases; that nothing else writes the unit is `pcElementsHaveTheirWriters`, from which the statements about runs take what stays
unchanged: the accumulators (`accumulators_afterAll`), CUR (`cur_afterAll_eq_zero`) and the ticks counted since the last edge
(`elapsed_afterAll`). -/

namespace Sys2Proof.Machine

/-! ### TICK and LINE -/

section
variable {s : State}

theorem tickWith_of_wrap (g : Bool) (h : s.tmr = 0xFFFF) :
    tickWith g s = { s with tmr := 0, ovfPend := s.ovfPend || !g || s.line } := by
  simp [tickWith, nextTick, ovfPendAfterTick_eq, h, Bool.or_assoc]

theorem tickWith_of_no_wrap (g : Bool) (h : s.tmr ≠ 0xFFFF) : tickWith g s = { s with tmr := s.tmr + 1 } := by
  simp only [tickWith, nextTick, ovfPendAfterTick, if_neg h]

theorem tmr_toNat_add_one (h : s.tmr ≠ 0xFFFF) : (s.tmr + 1).toNat = s.tmr.toNat + 1 := by
  bv_omega

theorem sampleLine_of_same {v : Bool} (h : v = s.line) : sampleLine v s = s := by
  simp [sampleLine, edgePendAfterLine, h]

theorem sampleLine_of_change {v : Bool} (h : v ≠ s.line) : sampleLine v s = { s with line := v, edgePend := true } := by
  simp [sampleLine, edgePendAfterLine, h]

end

/-- Settles O18: the gate matters to a TICK only where the timer wraps. -/
theorem tickAdvancesTheTimer : Obligations.TickAdvancesTheTimer := by
  refine fun s => ⟨⟨tickWith true s, rfl, rfl, fun low => ?_, fun wrap => ?_⟩, rfl, fun wrap => ?_, fun low => ?_⟩
  · rw [tickWith_of_no_wrap true low]
    exact ⟨tmr_toNat_add_one low, rfl⟩
  · rw [tickWith_of_wrap true wrap]
    exact ⟨rfl, by simp +contextual, by simp +contextual⟩
  · simp [tickWith_of_wrap _ wrap]
  · rw [tickWith_of_no_wrap _ low, tickWith_of_no_wrap _ low]

/-- Settles O19: an unchanged level leaves the state as it is, a change in either direction is an edge. -/
theorem lineRecordsAnEdgeOnAChange : Obligations.LineRecordsAnEdgeOnAChange := fun _ _ =>
  ⟨fun same => congrArg _ (sampleLine_of_same same), fun change => congrArg _ (sampleLine_of_change change)⟩

/-- Settles O51: a flag that is set stays set, so the second event leaves the timer's or the input's new value only. -/
theorem pendingFlagsCoalesce : Obligations.PendingFlagsCoalesce := by
  refine fun s => ⟨fun pend wrap => ?_, fun pend v => ?_⟩
  · rw [exec_eq_next_after, after_tick, tickWith_of_wrap _ wrap]
    simp [pend]
  · rw [exec_eq_next_after, after_line, sampleLine, edgePendAfterLine_eq, pend]
    simp [← pend]

/-! ### The two service units -/

section
variable {s : State}

theorem after_ovfSvc_of_pending (h : s.ovfPend = true) : after .ovfSvc s = countWrap s := if_pos h

theorem after_ovfSvc_of_clear (h : s.ovfPend = false) : after .ovfSvc s = s := by simp [h]

theorem after_edgeSvc_of_pending (h : s.edgePend = true) : after .edgeSvc s = latchEdge s := if_pos h

theorem after_edgeSvc_of_clear (h : s.edgePend = false) : after .edgeSvc s = s := by simp [h]

end

/-- Settles O20: a pending wrap moves from the flag into the 16-bit count. -/
theorem ovfSvcCountsOneWrap : Obligations.OvfSvcCountsOneWrap := by
  refine fun s => ⟨fun clear => ?_, fun pend => ⟨countWrap s, ?_, rfl, BitVec.toNat_add s.ovc 1⟩⟩
  · rw [exec_eq_next_after, after_ovfSvc_of_clear clear]
  · rw [exec_eq_next_after, after_ovfSvc_of_pending pend]

/-- Settles O21: the duration is exact, by `durationOf_toNat`. -/
theorem edgeSvcLatchesTheDuration : Obligations.EdgeSvcLatchesTheDuration := by
  refine fun s => ⟨fun clear => ?_, fun pend => ⟨latchEdge s, ?_, rfl, durationOf_toNat s.tmr s.ovc, BitVec.toNat_add s.hpc 1,
    BitVec.toNat_add s.hps _⟩⟩
  · rw [exec_eq_next_after, after_edgeSvc_of_clear clear]
  · rw [exec_eq_next_after, after_edgeSvc_of_pending pend]

/-- Settles O23: the read returns the count that the latch has left. -/
theorem rdHpcReturnsThePulseCount : Obligations.RdHpcReturnsThePulseCount := by
  refine fun s => ⟨rfl, fun pend t u latch read => ⟨s.hpc + 1, ?_, BitVec.toNat_add s.hpc 1⟩⟩
  obtain rfl := exec_eq_next_iff.mp latch
  obtain rfl := exec_eq_next_iff.mp read
  rw [after_edgeSvc_of_pending pend]
  rfl

/-! ### The writers of the capture unit's elements -/

/-- Every operation of the receiver is its write of one display register (R130). -/
theorem after_eq_frameWrite_of_receiver {i : Instr} (s : State) (h : isBlockOp i = false) :
    ∃ a d, after i s = frameWrite a d s := by
  cases i with
  | send | rdHpc | rdCur | take | tick | line | ovfSvc | edgeSvc | frStep | reset => cases h
  | _ => exact ⟨_, _, rfl⟩

/-- Settles O33, operation by operation: each writes the elements that the rules name. -/
theorem pcElementsHaveTheirWriters : Obligations.PcElementsHaveTheirWriters := by
  intro i s t hx
  obtain rfl := exec_eq_next_iff.mp hx
  cases block : isBlockOp i with
  | false =>
    obtain ⟨a, d, written⟩ := after_eq_frameWrite_of_receiver s block
    simp [written]
  | true =>
    cases i with
    | send | ovfSvc | edgeSvc =>
      simp only [after_send, after_ovfSvc, after_edgeSvc]
      split <;> simp [startFrame_eq]
    | frStep =>
      rw [after_frStep, stepFrame_eq]
      simp
    | tick | line | rdHpc | rdCur | take | reset => simp
    | _ => cases block

/-! ### CUR since RESET -/

theorem afterAll_cons (i : Instr) (is : List Instr) (s : State) : afterAll (i :: is) s = afterAll is (after i s) := rfl

theorem cur_after_eq_zero {i : Instr} {s : State} (noEdge : i ≠ .edgeSvc) (h : s.cur = 0) : (after i s).cur = 0 := by
  obtain ⟨-, -, -, -, -, cur, -, -⟩ := pcElementsHaveTheirWriters i s _ (exec_eq_next_after i s)
  by_contra changed
  rcases cur (h ▸ changed) with edge | rfl
  · exact noEdge edge
  · rw [after_reset, resetWith_eq] at changed
    exact changed rfl

theorem cur_afterAll_eq_zero {ops : List Instr} {s : State} (noEdge : .edgeSvc ∉ ops) (h : s.cur = 0) :
    (afterAll ops s).cur = 0 := by
  induction ops generalizing s with
  | nil => exact h
  | cons i is ih =>
    exact ih (List.not_mem_of_not_mem_cons noEdge) (cur_after_eq_zero (List.ne_of_not_mem_cons noEdge).symm h)

/-- Settles O24: RESET clears CUR, and without EDGE_SVC it stays clear. -/
theorem rdCurReturnsTheLatch : Obligations.RdCurReturnsTheLatch := by
  refine ⟨fun s => rfl, fun s ops noEdge => ⟨_, _, runOps_eq_next_afterAll _ s, exec_eq_next_after _ _, ?_⟩, ?_⟩
  · have clear : (after .reset s).cur = 0 := by rw [after_reset, resetWith_eq]; rfl
    rw [after_resp, responsesTo, afterAll_cons, cur_afterAll_eq_zero noEdge clear]
  · rintro s t hx
    obtain rfl := exec_eq_next_iff.mp hx
    rfl

/-! ### The accumulators over a window -/

/-- An operation other than TAKE and RESET that latches no duration keeps both accumulators (R172). -/
theorem accumulators_after_of_no_latch {i : Instr} {s : State} (noLatch : ¬(i = .edgeSvc ∧ s.edgePend = true)) (noTake : i ≠ .take)
    (noReset : i ≠ .reset) : (after i s).hps = s.hps ∧ (after i s).hpc = s.hpc := by
  by_cases edge : i = .edgeSvc
  · subst edge
    rw [after_edgeSvc_of_clear (by simpa using noLatch)]
    exact ⟨rfl, rfl⟩
  · obtain ⟨-, -, -, -, -, -, hps, hpc⟩ := pcElementsHaveTheirWriters i s _ (exec_eq_next_after i s)
    simp only [edge, noTake, noReset, or_self] at hps hpc
    exact ⟨not_not.mp hps, not_not.mp hpc⟩

/-- Over a run without TAKE and RESET the accumulators take up exactly the durations it latches (R163, R166). -/
theorem accumulators_afterAll {ops : List Instr} {s : State} (noTake : .take ∉ ops) (noReset : .reset ∉ ops) :
    (afterAll ops s).hps = (latchedBy ops s).foldl (· + ·) s.hps ∧
      (afterAll ops s).hpc = s.hpc + BitVec.ofNat 16 (latchedBy ops s).length := by
  induction ops generalizing s with
  | nil => exact ⟨rfl, (BitVec.add_zero s.hpc).symm⟩
  | cons i is ih =>
    obtain ⟨sum, count⟩ := ih (s := after i s) (List.not_mem_of_not_mem_cons noTake) (List.not_mem_of_not_mem_cons noReset)
    rw [afterAll_cons, sum, count, latchedBy]
    split
    next latch =>
      obtain ⟨rfl, pend⟩ := latch
      rw [after_edgeSvc_of_pending pend]
      rw [latchEdge_hps, latchEdge_hpc, List.foldl_cons, List.length_cons, Nat.add_comm, BitVec.ofNat_add, BitVec.add_assoc]
      exact ⟨rfl, rfl⟩
    next noLatch =>
      obtain ⟨hps, hpc⟩ := accumulators_after_of_no_latch noLatch (List.ne_of_not_mem_cons noTake).symm
        (List.ne_of_not_mem_cons noReset).symm
      exact ⟨by rw [hps], by rw [hpc]⟩

/-- Settles O22: TAKE returns the accumulators, which hold what the window has latched. -/
theorem takeSwapsTheAccumulators : Obligations.TakeSwapsTheAccumulators := by
  refine ⟨fun s => rfl, fun ops s t hps hpc noTake noReset run => ⟨_, exec_eq_next_after .take t, ?_⟩⟩
  obtain rfl := Host.Outcome.next.inj ((runOps_eq_next_afterAll ops s).symm.trans run)
  obtain ⟨sum, count⟩ := accumulators_afterAll (s := s) noTake noReset
  rw [after_resp, responsesTo, sum, count, hps, hpc]
  simp

/-! ### The ticks since the last edge -/

/-- The ticks since the last edge as the capture unit has them: the timer, the wraps counted, and the wrap still pending. -/
def elapsed (s : State) : Nat := s.tmr.toNat + (s.ovc.toNat + s.ovfPend.toNat) * 65536

theorem elapsed_tickWith (g : Bool) {s : State}
    (counted : s.tmr = 0xFFFF → (s.line = true ∨ g = false) ∧ s.ovfPend = false) : elapsed (tickWith g s) = elapsed s + 1 := by
  by_cases wrap : s.tmr = 0xFFFF
  · obtain ⟨gate, clear⟩ := counted wrap
    have flag : (s.ovfPend || !g || s.line) = true := by
      rcases gate with h | h <;> simp [h]
    rw [tickWith_of_wrap g wrap, flag, elapsed, elapsed, clear, wrap]
    simp only [BitVec.reduceToNat, Bool.toNat_true, Bool.toNat_false]
    omega
  · simp only [tickWith_of_no_wrap g wrap, elapsed, tmr_toNat_add_one wrap]
    omega

/-- OVF_SVC moves the pending wrap into OVC; where OVC wraps, 2^32 ticks are lost (R169). -/
theorem elapsed_countWrap {s : State} (pend : s.ovfPend = true) : elapsed (countWrap s) ≡ elapsed s [MOD 2 ^ 32] := by
  have ovc : (s.ovc + 1).toNat = (s.ovc.toNat + 1) % 65536 := BitVec.toNat_add s.ovc 1
  simp only [Nat.ModEq, elapsed, countWrap_tmr, countWrap_ovc, countWrap_ovfPend, ovc, pend, Bool.toNat_true, Bool.toNat_false]
  omega

/-- Between two edges a counted TICK adds one tick, and no other operation adds any (R165). -/
theorem elapsed_after {i : Instr} {s : State} (noEdge : i ≠ .edgeSvc) (noReset : i ≠ .reset)
    (counted : i = .tick → s.tmr = 0xFFFF → (s.line = true ∨ Config.ovfLineGate = false) ∧ s.ovfPend = false) :
    elapsed (after i s) ≡ elapsed s + (if i = .tick then 1 else 0) [MOD 2 ^ 32] := by
  by_cases tick : i = .tick
  · subst tick
    rw [after_tick, elapsed_tickWith _ (counted rfl)]
    rfl
  rw [if_neg tick, Nat.add_zero]
  by_cases service : i = .ovfSvc
  · subst service
    cases pend : s.ovfPend with
    | true => rw [after_ovfSvc_of_pending pend]; exact elapsed_countWrap pend
    | false => rw [after_ovfSvc_of_clear pend]
  · obtain ⟨tmr, ovfPend, ovc, -⟩ := pcElementsHaveTheirWriters i s _ (exec_eq_next_after i s)
    simp only [tick, service, noEdge, noReset, or_self] at tmr ovfPend ovc
    rw [elapsed, not_not.mp tmr, not_not.mp ovfPend, not_not.mp ovc]
    rfl

theorem elapsed_afterAll {ops : List Instr} {s : State} (noEdge : .edgeSvc ∉ ops) (noReset : .reset ∉ ops)
    (counted : WrapsCounted ops s) : elapsed (afterAll ops s) ≡ elapsed s + tickCount ops [MOD 2 ^ 32] := by
  induction ops generalizing s with
  | nil => rfl
  | cons i is ih =>
    obtain ⟨first, rest⟩ := counted
    have step := elapsed_after (List.ne_of_not_mem_cons noEdge).symm (List.ne_of_not_mem_cons noReset).symm first
    calc elapsed (afterAll (i :: is) s)
      _ ≡ elapsed (after i s) + tickCount is [MOD 2 ^ 32] :=
        ih (List.not_mem_of_not_mem_cons noEdge) (List.not_mem_of_not_mem_cons noReset) rest
      _ ≡ elapsed s + (if i = .tick then 1 else 0) + tickCount is [MOD 2 ^ 32] := step.add_right _
      _ = elapsed s + tickCount (i :: is) := by rw [tickCount]; omega

/-- With no wrap pending EDGE_SVC latches the ticks since the last edge (R163, R164). -/
theorem cur_latchEdge_toNat {s : State} (clear : s.ovfPend = false) : (latchEdge s).cur.toNat = elapsed s := by
  rw [latchEdge_cur, durationOf_toNat, elapsed, clear]
  rfl

/-- Settles O46: the first EDGE_SVC starts the count at 0, and fewer than 2^32 ticks do not lose a turn of OVC. -/
theorem curMeasuresTheTicksBetweenEdges : Obligations.CurMeasuresTheTicksBetweenEdges := by
  intro ops s s' t edge clear first noEdge noReset few counted run clearAtEnd edgeAtEnd
  obtain rfl := Host.Outcome.next.inj ((runOps_eq_next_afterAll ops s').symm.trans run)
  obtain rfl : latchEdge s = s' := by rw [← after_edgeSvc_of_pending edge, exec_eq_next_iff.mp first]
  have start : elapsed (latchEdge s) = 0 := by simp [elapsed, clear]
  have ticks := elapsed_afterAll noEdge noReset counted
  rw [start, Nat.zero_add, ← cur_latchEdge_toNat clearAtEnd] at ticks
  refine ⟨latchEdge (afterAll ops (latchEdge s)), ?_, ticks.eq_of_lt_of_lt (BitVec.isLt _) few⟩
  rw [exec_eq_next_after, after_edgeSvc_of_pending edgeAtEnd]

end Sys2Proof.Machine
end

