-- ==== Sys2Proof/Proofs/Exceptions.lean ====
section
/-! PROOFS. The statements about service and scheduling (60_exceptions.md). What a turn and a free choice can come to is said once, in
`takeTurn_next_or_refused` and `freeTurn_cases`; that a service changes the state exactly when it is enabled, in
`exec_eq_next_self_iff_of_isService`. A coincident wrap and edge are read off the ticks since the last edge (`elapsed`). -/

namespace Sys2Proof.Machine

/-! ### The scheduler's turns -/

/-- A turn answers a next state unless it is a word that spells no operation. -/
theorem takeTurn_next_or_refused (u : Turn) (s : State) :
    (∃ t, takeTurn u s = .next t) ∨
      ∃ w r, u = .op w ∧ decodeOp w = .error r ∧ takeTurn u s = .refused (refusalOf r) := by
  rcases takeTurn_cases u s with refused | ⟨w, i, -, -, e⟩ | ⟨-, -, e⟩ | ⟨q, qs, -, -, -, e⟩ | ⟨a, d, qs, -, -, -, e⟩
  · exact .inr refused
  · exact .inl ⟨_, e.trans (exec_eq_next_after i s)⟩
  · exact .inl ⟨_, e⟩
  · exact .inl ⟨_, e⟩
  · exact .inl ⟨_, e.trans (exec_eq_next_after (.send a d) _)⟩

/-- A free choice is the turn of the operation it spells, and HOST's turn where it spells none. -/
theorem freeTurn_cases (pick : Option OpWord) :
    (∃ w i, pick = some w ∧ decodeOp w = .ok i ∧ freeTurn pick = .op w) ∨
      ((∀ w i, pick = some w → decodeOp w ≠ .ok i) ∧ freeTurn pick = .host) := by
  cases pick with
  | none => exact .inr ⟨nofun, rfl⟩
  | some w =>
    cases h : decodeOp w with
    | ok i => exact .inl ⟨w, i, rfl, h, by simp [freeTurn, h]⟩
    | error r =>
      refine .inr ⟨fun v i same => ?_, by simp [freeTurn, h]⟩
      cases same
      simp [h]

theorem step_free {s : State} (h : s.schedule = []) :
    step s = takeTurn (freeTurn (Config.freePick s.picks)) { s with picks := s.picks + 1 } := by
  simp [step, nextTurn, h]

theorem step_scheduled {s : State} {u : Turn} {rest : List Turn} (h : s.schedule = u :: rest) :
    step s = takeTurn u { s with schedule := rest } := by
  simp [step, nextTurn, h]

/-- Settles O8: the free choice is either an operation's turn or HOST's. -/
theorem stepRunsTheFreeChoice : Obligations.StepRunsTheFreeChoice := by
  intro s free
  rw [step_free free]
  rcases freeTurn_cases (Config.freePick s.picks) with ⟨w, i, pick, hi, e⟩ | ⟨noOp, e⟩
  · exact .inl ⟨w, i, pick, hi, by simp [e, takeTurn, hi]⟩
  · exact .inr ⟨noOp, by rw [e]; rfl⟩

/-- Settles O10: no operation stops the machine, and only a scheduled word can fail to decode, never a free choice. -/
theorem nothingStopsButReservedWords : Obligations.NothingStopsButReservedWords := by
  refine ⟨fun i s => ⟨after i s, exec_eq_next_after i s⟩, fun s => ?_⟩
  cases h : s.schedule with
  | nil =>
    rcases stepRunsTheFreeChoice s h with ⟨w, i, -, -, e⟩ | ⟨-, e⟩
    · exact .inl ⟨_, e.trans (exec_eq_next_after i _)⟩
    · rcases takeTurn_next_or_refused .host { s with picks := s.picks + 1 } with ⟨t, next⟩ | ⟨w, r, isOp, -⟩
      · exact .inl ⟨t, e.trans next⟩
      · cases isOp
  | cons u rest =>
    rw [step_scheduled h]
    rcases takeTurn_next_or_refused u { s with schedule := rest } with next | ⟨w, r, rfl, hr, refused⟩
    · exact .inl next
    · exact .inr ⟨w, rest, r, rfl, hr, refused⟩

/-! ### Enabled services -/

theorem nextPhase_eq_self_iff (p : Phase) : nextPhase p = p ↔ p = .idle := by
  cases p <;> simp [nextPhase]

/-- The phase moves with every FR_STEP out of a busy phase (R101). -/
theorem after_frStep_eq_self_iff (s : State) : after .frStep s = s ↔ enabled .frStep s = false := by
  refine Iff.trans ⟨fun h => ?_, stepFrame_of_idle⟩ (frBusy_eq_false_iff s).symm
  exact (nextPhase_eq_self_iff s.frPhase).mp (congrArg State.frPhase h)

/-- OVF_SVC clears the flag that enables it (R162, R203). -/
theorem enabled_ovfSvc_after (s : State) : enabled .ovfSvc (after .ovfSvc s) = false := by
  cases pend : s.ovfPend with
  | true => rw [after_ovfSvc_of_pending pend]; rfl
  | false => rw [after_ovfSvc_of_clear pend]; exact pend

/-- EDGE_SVC clears the flag that enables it (R163, R203). -/
theorem enabled_edgeSvc_after (s : State) : enabled .edgeSvc (after .edgeSvc s) = false := by
  cases pend : s.edgePend with
  | true => rw [after_edgeSvc_of_pending pend]; rfl
  | false => rw [after_edgeSvc_of_clear pend]; exact pend

theorem after_ovfSvc_eq_self_iff (s : State) : after .ovfSvc s = s ↔ enabled .ovfSvc s = false :=
  ⟨fun h => h ▸ enabled_ovfSvc_after s, after_ovfSvc_of_clear⟩

theorem after_edgeSvc_eq_self_iff (s : State) : after .edgeSvc s = s ↔ enabled .edgeSvc s = false :=
  ⟨fun h => h ▸ enabled_edgeSvc_after s, after_edgeSvc_of_clear⟩

/-- An operation of FRS, OVU or EDU answers the state unchanged exactly when it is not enabled (R201, R214). -/
theorem exec_eq_next_self_iff_of_isService {i : Instr} (h : i = .frStep ∨ i = .ovfSvc ∨ i = .edgeSvc) (s : State) :
    exec i s = .next s ↔ enabled i s = false := by
  rw [exec_eq_next_iff]
  rcases h with rfl | rfl | rfl
  · exact after_frStep_eq_self_iff s
  · exact after_ovfSvc_eq_self_iff s
  · exact after_edgeSvc_eq_self_iff s

/-- The operations of the block that can be disabled are SEND, which holds, and the three services (R214). -/
theorem send_or_isService_of_disabled {i : Instr} {s : State} (block : isBlockOp i = true) (disabled : enabled i s = false) :
    (∃ a d, i = .send a d) ∨ i = .frStep ∨ i = .ovfSvc ∨ i = .edgeSvc := by
  cases i with
  | send a d => exact .inl ⟨a, d, rfl⟩
  | frStep | ovfSvc | edgeSvc => simp
  | rdHpc | rdCur | take | tick | line | reset => cases disabled
  | _ => cases block

theorem after_send_of_disabled {a d : Byte} {s : State} (h : enabled (.send a d) s = false) :
    after (.send a d) s = holdSend a d s := by
  have busy : frBusy s = true := by simpa [enabled] using h
  simp [busy]

/-- Settles O38: a disabled SEND joins the held requests, and a service changes the state exactly when it is enabled. -/
theorem disabledOperationsChangeNothing : Obligations.DisabledOperationsChangeNothing := by
  refine ⟨fun i s block disabled => ?_, fun i s service => ?_⟩
  · rcases send_or_isService_of_disabled block disabled with ⟨a, d, rfl⟩ | service
    · refine ⟨holdSend a d s, ?_, rfl⟩
      rw [exec_eq_next_after, after_send_of_disabled disabled]
    · exact ⟨s, (exec_eq_next_self_iff_of_isService service s).mpr disabled, rfl⟩
  · rw [ne_eq, exec_eq_next_self_iff_of_isService service, Bool.not_eq_false]

theorem quiescent_iff (s : State) :
    quiescent s = true ↔ enabled .frStep s = false ∧ enabled .ovfSvc s = false ∧ enabled .edgeSvc s = false := by
  simp [quiescent, enabled, and_assoc]

/-- Settles O39: a service that is not enabled is one that changes nothing. -/
theorem quiescentMeansNoServiceStep : Obligations.QuiescentMeansNoServiceStep := by
  intro s
  rw [quiescent_iff, exec_eq_next_self_iff_of_isService (by simp), exec_eq_next_self_iff_of_isService (by simp),
    exec_eq_next_self_iff_of_isService (by simp)]

/-! ### Fair services -/

/-- Under weak fairness an operation that disables itself is disabled again and again (R215). -/
theorem exists_disabled_of_weaklyFair {i : Instr} {σ : Nat → Instr} {s : State}
    (disables : ∀ u, enabled i (after i u) = false) (fair : WeaklyFair i σ s) (n : Nat) :
    ∃ m, n ≤ m ∧ enabled i (trajectory σ s m) = false := by
  obtain ⟨m, hm, taken | disabled⟩ := fair n
  · refine ⟨m + 1, by omega, ?_⟩
    rw [trajectory, taken]
    exact disables _
  · exact ⟨m, hm, disabled⟩

/-- Settles O45: each service is enabled by its flag alone and clears it. -/
theorem fairServicesClearTheirFlags : Obligations.FairServicesClearTheirFlags := fun _ _ =>
  ⟨exists_disabled_of_weaklyFair enabled_ovfSvc_after, exists_disabled_of_weaklyFair enabled_edgeSvc_after⟩

/-! ### Coincident events -/

section
variable {s : State}

theorem runOps_ovfSvc_edgeSvc (ovf : s.ovfPend = true) (edge : s.edgePend = true) :
    runOps [.ovfSvc, .edgeSvc] s = .next (latchEdge (countWrap s)) := by
  simp [ovf, edge]

theorem runOps_edgeSvc_ovfSvc (ovf : s.ovfPend = true) (edge : s.edgePend = true) :
    runOps [.edgeSvc, .ovfSvc] s = .next (countWrap (latchEdge s)) := by
  simp [ovf, edge]

/-- A wrap counted before the edge is part of the half-period that ends (R205). -/
theorem cur_latchEdge_countWrap_toNat (ovf : s.ovfPend = true) :
    (latchEdge (countWrap s)).cur.toNat = (s.tmr.toNat + (s.ovc.toNat + 1) * 65536) % 2 ^ 32 :=
  calc (latchEdge (countWrap s)).cur.toNat
    _ = (latchEdge (countWrap s)).cur.toNat % 2 ^ 32 := (Nat.mod_eq_of_lt (BitVec.isLt _)).symm
    _ = elapsed (countWrap s) % 2 ^ 32 := by rw [cur_latchEdge_toNat rfl]
    _ = elapsed s % 2 ^ 32 := elapsed_countWrap ovf
    _ = (s.tmr.toNat + (s.ovc.toNat + 1) * 65536) % 2 ^ 32 := by rw [elapsed, ovf, Bool.toNat_true]

end

/-- Settles O48: a wrap counted first belongs to the half-period that ends, a wrap counted second to the one that starts. -/
theorem coincidentOverflowAndEdge : Obligations.CoincidentOverflowAndEdge := fun s ovf edge =>
  ⟨ovf, edge, ⟨_, runOps_ovfSvc_edgeSvc ovf edge, cur_latchEdge_countWrap_toNat ovf, rfl⟩,
    ⟨_, runOps_edgeSvc_ovfSvc ovf edge, durationOf_toNat s.tmr s.ovc, rfl⟩⟩

/-- Settles O50: TAKE leaves both accumulators 0, so a later EDGE_SVC starts the next window, and an earlier one is returned. -/
theorem takeAndEdgeInEitherOrder : Obligations.TakeAndEdgeInEitherOrder := by
  intro s edge
  constructor
  · exact ⟨latchEdge (after .take s), by simp [edge], rfl, rfl, BitVec.zero_add _⟩
  · exact ⟨after .take (latchEdge s), by simp [edge], rfl, rfl, rfl⟩

end Sys2Proof.Machine
end

