-- ==== Sys2Proof/Proofs/Hazards.lean ====
section
/-! PROOFS. The statements about reset and hazards (70_reset_and_hazards.md). RESET is said once as a state (`after_reset_eq`); what it
does to a frame in progress follows from the bytes the receiver has since the CS_FALL, which are those of the phase
(`rxBytes_of_inv`). A run of TICKs with the input low only moves the timer (`afterAll_ticksOps_of_low`). The two orders of a
coincident overflow and edge differ by one timer period that stands in HPS or in OVC (`periodInOvc`), and the next EDGE_SVC adds OVC
to HPS. -/

namespace Sys2Proof.Machine

/-! ### RESET -/

/-- RESET as a state: the power-up state with the draw, but for what a RESET keeps (R230). -/
theorem after_reset_eq (s : State) :
    after .reset s =
      { State.powerUp (drawLine0 s) with
        wire := (closeFrame s).wire, dreg := (closeFrame s).dreg, resp := s.resp, held := s.held, schedule := s.schedule,
        picks := s.picks, line0In := s.line0In.tail, draws := s.draws + 1 } := by
  rw [after_reset, resetWith_eq]
  rfl

/-- Settles O25: only WIRE and DREG depend on whether a frame was in progress. -/
theorem resetGivesTheResetColumn : Obligations.ResetGivesTheResetColumn := by
  refine fun s => ⟨after .reset s, exec_eq_next_after .reset s, ?_⟩
  rw [after_reset_eq]
  refine ⟨rfl, fun released => ?_, fun asserted => ?_, fun released wire resp dreg => ?_⟩
  · rw [closeFrame_of_released released]
    exact ⟨rfl, rfl⟩
  · rw [closeFrame_of_asserted asserted]
    exact ⟨emit_wire .csRise s, rfl⟩
  · rw [closeFrame_of_released released, wire, resp, dreg]
    rfl

/-! ### RESET during a frame -/

/-- While the link is open, RX of R130 is the bytes the link carries. -/
theorem rxFrom_of_linkFrom_opened {l : Link} {acc bs : List Byte} {w : List WireEvent} (start : l = .closed ∨ l = .opened acc)
    (h : linkFrom l w = some (.opened bs)) : rxFrom acc w = bs := by
  induction w generalizing l acc with
  | nil =>
    obtain rfl : l = .opened bs := Option.some.inj h
    simpa [rxFrom, eq_comm] using start
  | cons e es ih =>
    obtain ⟨m, stepped, rest⟩ := linkFrom_cons_eq_some_iff.mp h
    rcases start with rfl | rfl
    · cases e with
      | csFall => cases stepped; exact ih (.inr rfl) rest
      | byte b => cases stepped
      | csRise => cases stepped
    · cases e with
      | csFall => cases stepped
      | byte b =>
        simp only [linkStep, Option.ite_none_right_eq_some, Option.some.injEq] at stepped
        exact ih (.inr stepped.2.symm) rest
      | csRise => cases stepped; exact ih (.inl rfl) rest

/-- With the framer's invariant the receiver has, in each phase of a frame, the bytes of that phase (R101, R130). -/
theorem rxBytes_of_inv {s : State} {bs : List Byte} (h : Inv s) (phase : linkOfPhase s = .opened bs) : rxBytes s.wire = bs := by
  obtain ⟨-, -, link, -⟩ := h
  exact rxFrom_of_linkFrom_opened (.inl rfl) (link.trans (congrArg some phase))

theorem csN_iff_of_inv {s : State} (h : Inv s) : s.csN = true ↔ s.frPhase = .idle := (csOk_iff s).mp h.1

theorem after_reset_of_idle {s : State} (h : Inv s) (idle : s.frPhase = .idle) :
    (after .reset s).wire = s.wire ∧ (after .reset s).dreg = s.dreg := by
  rw [after_reset_eq, closeFrame_of_released ((csN_iff_of_inv h).mpr idle)]
  exact ⟨rfl, rfl⟩

/-- RESET during a frame puts a CS_RISE on the wire, and the receiver makes of it what it makes of the phase's bytes (R231). -/
theorem after_reset_of_busy {s : State} {bs : List Byte} (h : Inv s) (phase : linkOfPhase s = .opened bs) :
    (after .reset s).wire = s.wire ++ [.csRise] ∧ (after .reset s).dreg = rxWrite bs s.dreg := by
  have busy : s.frPhase ≠ .idle := fun idle => by simp [linkOfPhase_idle idle] at phase
  have asserted : s.csN = false := Bool.eq_false_iff.mpr (mt (csN_iff_of_inv h).mp busy)
  rw [after_reset_eq, closeFrame_of_asserted asserted]
  exact ⟨emit_wire .csRise s, by rw [emit_csRise_dreg, rxBytes_of_inv h phase]⟩

/-- Settles O27: no byte in ADDR, one in GAP and DATA, and both in END, where the receiver writes. -/
theorem resetCutsOrCompletesTheFrame : Obligations.ResetCutsOrCompletesTheFrame := by
  refine fun s h => ⟨after .reset s, exec_eq_next_after .reset s, after_reset_of_idle h, fun cut => ?_, fun complete => ?_⟩
  · rcases cut with phase | phase | phase
    · exact after_reset_of_busy (bs := []) h (by simp only [linkOfPhase, phase])
    · exact after_reset_of_busy (bs := [s.frAddr]) h (by simp only [linkOfPhase, phase])
    · exact after_reset_of_busy (bs := [s.frAddr]) h (by simp only [linkOfPhase, phase])
  · obtain ⟨wire, dreg⟩ := after_reset_of_busy (bs := [s.frAddr, s.frData]) h (by simp only [linkOfPhase, complete])
    exact ⟨wire, dreg ▸ setsRegister_write s.dreg s.frAddr s.frData⟩

/-! ### Wraps under the gate -/

/-- Under the gate a TICK with the input low moves the timer and nothing else, a wrap among them (R160). -/
theorem after_tick_of_low {s : State} (low : s.line = false) : after .tick s = { s with tmr := s.tmr + 1 } := by
  rw [after_tick, Config.ovfLineGate]
  by_cases wrap : s.tmr = 0xFFFF
  · rw [tickWith_of_wrap true wrap, low, wrap]
    simp
  · exact tickWith_of_no_wrap true wrap

theorem afterAll_ticksOps_of_low (n : Nat) {s : State} (low : s.line = false) :
    afterAll (ticksOps n) s = { s with tmr := s.tmr + BitVec.ofNat 16 n } := by
  induction n generalizing s with
  | zero => simp [ticksOps, afterAll]
  | succ n ih =>
    have later := ih (s := { s with tmr := s.tmr + 1 }) low
    rw [ticksOps, List.replicate_succ, afterAll_cons, ← ticksOps, after_tick_of_low low, later, Nat.add_comm n,
      BitVec.ofNat_add, ← BitVec.add_assoc]
    rfl

/-- An input that changes and its EDGE_SVC latch the duration the capture unit has (R161, R163). -/
theorem afterAll_line_edgeSvc {s : State} {v : Bool} (change : v ≠ s.line) :
    afterAll [.line v, .edgeSvc] s = latchEdge { s with line := v, edgePend := true } := by
  rw [afterAll_cons, after_line, sampleLine_of_change change]
  rfl

/-- Settles O47: with OVC at 0 what is latched is the timer, which is n modulo the timer period. -/
theorem gatedWrapsAreNotCounted : Obligations.GatedWrapsAreNotCounted := by
  intro n s tmr ovc low _
  refine ⟨_, runOps_eq_next_afterAll _ s, ?_⟩
  have change : true ≠ (afterAll (ticksOps n) s).line := by simp [afterAll_ticksOps_of_low n low, low]
  rw [afterAll_append, afterAll_line_edgeSvc change, afterAll_ticksOps_of_low n low]
  refine ⟨?_, rfl⟩
  calc (durationOf (s.tmr + BitVec.ofNat 16 n) s.ovc).toNat
    _ = n % 65536 := by simp [durationOf_toNat, tmr, ovc]
    _ = n - 65536 * (n / 65536) := Nat.mod_eq_sub_mul_div

/-! ### A coincident overflow and edge -/

/-- One more wrap counted is one timer period more, modulo 2^32 (R163, R169). -/
theorem durationOf_add_one (t k : Half) : durationOf t (k + 1) = durationOf t k + 0x10000 := by
  apply BitVec.eq_of_toNat_eq
  have kNext : (k + 1).toNat = (k.toNat + 1) % 65536 := BitVec.toNat_add k 1
  have tLt := t.isLt
  have kLt := k.isLt
  rw [BitVec.toNat_add, durationOf_toNat, durationOf_toNat, kNext]
  simp only [BitVec.reduceToNat]
  omega

/-- s with one timer period moved from HPS into OVC, where the next EDGE_SVC finds it, and with another CUR. -/
def periodInOvc (c : Long) (s : State) : State := { s with ovc := s.ovc + 1, hps := s.hps - 0x10000, cur := c }

/-- The two orders of the services differ by the period that EDGE_SVC first leaves to the next half-period (R205). -/
theorem countWrap_latchEdge (s : State) :
    countWrap (latchEdge s) = periodInOvc (durationOf s.tmr s.ovc) (latchEdge (countWrap s)) := by
  have sum : s.hps + durationOf s.tmr s.ovc = s.hps + durationOf s.tmr (s.ovc + 1) - 0x10000 := by
    rw [durationOf_add_one, ← BitVec.add_assoc, BitVec.add_sub_cancel]
  simp only [periodInOvc, latchEdge, countWrap, sum]

/-- A TICK and an OVF_SVC neither read nor write HPS and CUR, and add to OVC alike. -/
theorem after_periodInOvc {i : Instr} (h : i = .tick ∨ i = .ovfSvc) (c : Long) (s : State) :
    after i (periodInOvc c s) = periodInOvc c (after i s) := by
  rcases h with rfl | rfl
  · rfl
  · have samePend : (periodInOvc c s).ovfPend = s.ovfPend := rfl
    rw [after_ovfSvc, after_ovfSvc, samePend]
    split <;> rfl

theorem afterAll_periodInOvc {mid : List Instr} (h : ∀ i ∈ mid, i = .tick ∨ i = .ovfSvc) (c : Long) (s : State) :
    afterAll mid (periodInOvc c s) = periodInOvc c (afterAll mid s) := by
  induction mid generalizing s with
  | nil => rfl
  | cons i is ih =>
    obtain ⟨first, rest⟩ := List.forall_mem_cons.mp h
    rw [afterAll_cons, afterAll_cons, after_periodInOvc first, ih rest]

theorem line_afterAll_of_ticks_and_services {mid : List Instr} (h : ∀ i ∈ mid, i = .tick ∨ i = .ovfSvc) (s : State) :
    (afterAll mid s).line = s.line := by
  induction mid generalizing s with
  | nil => rfl
  | cons i is ih =>
    obtain ⟨first, rest⟩ := List.forall_mem_cons.mp h
    rw [afterAll_cons, ih rest]
    rcases first with rfl | rfl
    · rfl
    · rw [after_ovfSvc]
      split <;> rfl

/-- EDGE_SVC takes the moved period from OVC back into HPS, so the sum of the two durations is kept (R238). -/
theorem latchEdge_periodInOvc (c : Long) (s : State) :
    latchEdge (periodInOvc c s) = { latchEdge s with cur := durationOf s.tmr (s.ovc + 1) } := by
  have sum : s.hps - 0x10000 + durationOf s.tmr (s.ovc + 1) = s.hps + durationOf s.tmr s.ovc := by
    rw [durationOf_add_one, BitVec.add_comm (durationOf _ _), ← BitVec.add_assoc, BitVec.sub_add_cancel]
  simp only [periodInOvc, latchEdge, sum]

theorem afterAll_line_edgeSvc_periodInOvc {s : State} {v : Bool} (change : v ≠ s.line) (c : Long) :
    afterAll [.line v, .edgeSvc] (periodInOvc c s) =
      { afterAll [.line v, .edgeSvc] s with cur := durationOf s.tmr (s.ovc + 1) } := by
  rw [afterAll_line_edgeSvc (s := periodInOvc c s) change, afterAll_line_edgeSvc change]
  exact latchEdge_periodInOvc c { s with line := v, edgePend := true }

/-- Settles O49: the orders differ by `periodInOvc`, which the operations between keep and the next EDGE_SVC undoes. -/
theorem coincidenceKeepsTheSum : Obligations.CoincidenceKeepsTheSum := by
  intro s mid ovf edge hmid
  have first : afterAll [.ovfSvc, .edgeSvc] s = latchEdge (countWrap s) := by simp [afterAll, ovf, edge]
  have second : afterAll [.edgeSvc, .ovfSvc] s = periodInOvc (durationOf s.tmr s.ovc) (latchEdge (countWrap s)) := by
    rw [← countWrap_latchEdge]
    simp [afterAll, ovf, edge]
  have change : (!s.line) ≠ (afterAll mid (latchEdge (countWrap s))).line := by
    rw [line_afterAll_of_ticks_and_services hmid]
    exact Bool.not_ne_self s.line
  refine ⟨_, _, runOps_eq_next_afterAll _ s, runOps_eq_next_afterAll _ s, ?_⟩
  rw [afterAll_append, afterAll_append, afterAll_append, afterAll_append, first, second, afterAll_periodInOvc hmid,
    afterAll_line_edgeSvc_periodInOvc change]
  exact ⟨rfl, rfl, rfl⟩

end Sys2Proof.Machine
end

