-- ==== Sys2Proof/Proofs/Other.lean ====
section
/-! PROOFS. The statements that stand in no one chapter: the rows of the opcode table, the word placed for the next step, HOST's turn,
and the draw of RESET. A code decodes to i exactly when it is the code of i (`decode_eq_some_iff`), so a decoded code lies in its row;
two rows that share a code agree on the bits that both their masks keep (`rowsAgree_of_inRow`), and no two rows of the table do. -/

namespace Sys2Proof.Machine

/-! ### The rows of the opcode table -/

/-- No bit of a frame word is outside its two bytes (R70). -/
@[simp] theorem frameOf_frameAddr_frameData (f : FrameWord) : frameOf (frameAddr f) (frameData f) = f :=
  BitVec.extractLsb'_append_extractLsb' (w := 8) (len := 8)

/-- The command of an address is encoded with that address (R75). -/
theorem encode_of_commandOf {a d : Byte} {i : Instr} (h : commandOf a d = some i) : encode i = .frame16 (frameOf a d) := by
  unfold commandOf at h
  iterate 13
    obtain ⟨rfl, command⟩ | ⟨-, h⟩ := ite_eq_iff.mp h
    · cases command
      rfl
  cases h

/-- A code of either format spells the one instruction that is encoded to it. -/
theorem decode_eq_some_iff (c : Code) (i : Instr) : decode c = some i ↔ encode i = c := by
  refine ⟨fun h => ?_, fun h => h ▸ decode_encode i⟩
  cases c with
  | op20 w =>
    cases hw : decodeOp w with
    | error r => simp [decode, hw, Except.toOption] at h
    | ok j =>
      obtain rfl : j = i := by simpa [decode, hw, Except.toOption] using h
      exact (decodeOp_eq_ok_iff w j).mp hw
  | frame16 f => rw [encode_of_commandOf h, frameOf_frameAddr_frameData]

/-- The code of every instruction lies in the instruction's row. -/
theorem encode_inRow : ∀ i : Instr, (encode i).inRow (rowOf i) = true
  | .send a d => Laws.RowMatch.send a d
  | .rdHpc => Laws.RowMatch.rdHpc
  | .rdCur => Laws.RowMatch.rdCur
  | .take => Laws.RowMatch.take
  | .tick => Laws.RowMatch.tick
  | .line v => Laws.RowMatch.line v
  | .ovfSvc => Laws.RowMatch.ovfSvc
  | .edgeSvc => Laws.RowMatch.edgeSvc
  | .frStep => Laws.RowMatch.frStep
  | .reset => Laws.RowMatch.reset
  | .digit1 d => Laws.RowMatch.digit1 d
  | .digit2 d => Laws.RowMatch.digit2 d
  | .digit3 d => Laws.RowMatch.digit3 d
  | .digit4 d => Laws.RowMatch.digit4 d
  | .digit5 d => Laws.RowMatch.digit5 d
  | .digit6 d => Laws.RowMatch.digit6 d
  | .digit7 d => Laws.RowMatch.digit7 d
  | .digit8 d => Laws.RowMatch.digit8 d
  | .decodeMode d => Laws.RowMatch.decodeMode d
  | .intensity d => Laws.RowMatch.intensity d
  | .scanLimit d => Laws.RowMatch.scanLimit d
  | .shutdown d => Laws.RowMatch.shutdown d
  | .displayTest d => Laws.RowMatch.displayTest d

/-- The rows of the opcode table; an instruction's row does not depend on its operands. -/
def tableRows : List (Nat × Nat × Nat) :=
  [.send 0 0, .rdHpc, .rdCur, .take, .tick, .line false, .ovfSvc, .edgeSvc, .frStep, .reset, .digit1 0, .digit2 0, .digit3 0,
    .digit4 0, .digit5 0, .digit6 0, .digit7 0, .digit8 0, .decodeMode 0, .intensity 0, .scanLimit 0, .shutdown 0,
    .displayTest 0].map rowOf

theorem rowOf_mem_tableRows (i : Instr) : rowOf i ∈ tableRows := by
  cases i <;> simp [tableRows, rowOf]

/-- Whether two rows have one width and their matches are the same on the bits that both masks keep. -/
def rowsAgree (r r' : Nat × Nat × Nat) : Bool :=
  r.1 == r'.1 &&
    BitVec.ofNat r.1 r.2.1 &&& BitVec.ofNat r.1 r'.2.2 == BitVec.ofNat r.1 r'.2.1 &&& BitVec.ofNat r.1 r.2.2

/-- Two masks of one word leave matches that are the same on the bits both keep. -/
theorem match_and_mask_comm {n : Nat} {w k m k' m' : BitVec n} (h : w &&& k = m) (h' : w &&& k' = m') :
    m &&& k' = m' &&& k := by
  rw [← h, ← h', BitVec.and_assoc, BitVec.and_assoc, BitVec.and_comm k k']

theorem rowsAgree_of_inRow {c : Code} {r r' : Nat × Nat × Nat} (h : c.inRow r = true) (h' : c.inRow r' = true) :
    rowsAgree r r' = true := by
  obtain ⟨width, m, k⟩ := r
  obtain ⟨width', m', k'⟩ := r'
  cases c with
  | op20 w | frame16 w =>
    simp only [Code.inRow, Bool.and_eq_true, beq_iff_eq] at h h'
    obtain ⟨rfl, bits⟩ := h
    obtain ⟨rfl, bits'⟩ := h'
    simpa [rowsAgree] using match_and_mask_comm bits bits'

theorem eq_of_rowsAgree : ∀ r ∈ tableRows, ∀ r' ∈ tableRows, rowsAgree r r' = true → r = r' := by
  decide

/-- Settles O5: what decodes to i is the code of i, and two rows of one code agree. -/
theorem tableRowsMatchAndExclude : Obligations.TableRowsMatchAndExclude := by
  refine ⟨fun c i h => ?_, fun c i j hi hj => ?_⟩
  · exact (decode_eq_some_iff c i).mp h ▸ encode_inRow i
  · exact eq_of_rowsAgree _ (rowOf_mem_tableRows i) _ (rowOf_mem_tableRows j) (rowsAgree_of_inRow hi hj)

/-! ### The word placed for the next step -/

theorem exists_code_of_decodeTableWord {nbits w : Nat} {i : Instr} (h : decodeTableWord nbits w = some i) :
    ∃ c, codeOfTableWord nbits w = some c ∧ decode c = some i := by
  unfold decodeTableWord at h
  split at h
  next c hc => exact ⟨c, hc, h⟩
  next => cases h

/-- A number in the OP20 numbering decodes as the word it stands for. -/
theorem decodeOp_of_decodeTableWord {w : Nat} {i : Instr} (h : decodeTableWord 24 w = some i) :
    decodeOp (BitVec.ofNat 20 w) = .ok i := by
  obtain ⟨c, hc, hi⟩ := exists_code_of_decodeTableWord h
  obtain ⟨-, rfl⟩ : w < 2 ^ 20 ∧ .op20 (BitVec.ofNat 20 w) = c := by simpa [codeOfTableWord] using hc
  exact decodeOp_of_encode ((decode_eq_some_iff _ i).mp hi)

/-- A number in the FRAME16 numbering fits the frame word it stands for, and decodes as that word. -/
theorem decodeFrame_of_decodeTableWord {w : Nat} {i : Instr} (h : decodeTableWord 16 w = some i) :
    w < 2 ^ 16 ∧ decodeFrame (BitVec.ofNat 16 w) = some i := by
  obtain ⟨c, hc, hi⟩ := exists_code_of_decodeTableWord h
  obtain ⟨small, rfl⟩ : w < 2 ^ 16 ∧ .frame16 (BitVec.ofNat 16 w) = c := by simpa [codeOfTableWord] using hc
  exact ⟨small, hi⟩

theorem toNat_eq_frame_bytes (f : FrameWord) : f.toNat = (frameAddr f).toNat * 256 + (frameData f).toNat := by
  have := f.isLt
  rw [frameAddr_eq_ofNat, frameData_eq_ofNat, BitVec.toNat_ofNat, BitVec.toNat_ofNat]
  omega

/-- The step after a frame is placed is the FR_STEP at whose CS_RISE the receiver executes the frame (R130). -/
theorem step_loadFrame {f : FrameWord} {i : Instr} (h : decodeFrame f = some i) (s : State) :
    step (loadFrame f s) =
      exec i { s with
        frPhase := .idle, csN := true, tc := true, frAddr := frameAddr f, frData := frameData f,
        wire := s.wire ++ [.csFall, .byte (frameAddr f), .byte (frameData f), .csRise] } := by
  rw [step_runs (i := .frStep) (rest := s.schedule) rfl rfl,
    closedFrameRunsItsCommand _ s.wire (frameAddr f) (frameData f) i rfl rfl (by simpa using h)]
  simp [loadFrame]

/-- Settles O9: an OP20 word is the schedule's next turn; a FRAME16 word is the frame that the next turn's FR_STEP closes. -/
theorem placedWordIsRunNext : Obligations.PlacedWordIsRunNext := by
  refine fun s w i => ⟨fun h => ?_, fun h => ?_⟩
  · exact step_runs (rest := s.schedule) rfl (decodeOp_of_decodeTableWord h)
  · obtain ⟨small, decoded⟩ := decodeFrame_of_decodeTableWord h
    refine ⟨_, _, ?_, step_loadFrame decoded s⟩
    rw [← toNat_eq_frame_bytes, BitVec.toNat_ofNat, Nat.mod_eq_of_lt small]

/-! ### HOST's turn -/

section
variable {s : State} {a d : Byte} {q : List (Byte × Byte)} (oldest : s.held = (a, d) :: q)
include oldest

theorem retryHeld_of_idle (idle : s.frPhase = .idle) : retryHeld s = exec (.send a d) { s with held := q } := by
  simp [retryHeld, oldest, (frBusy_eq_false_iff s).mpr idle]

theorem retryHeld_of_busy (busy : s.frPhase ≠ .idle) : retryHeld s = .next s := by
  simp [retryHeld, oldest, frBusy, busy]

end

/-- Settles O12: in IDLE the retry is the SEND itself, with the request taken off the list. -/
theorem heldSendIsAcceptedInIdle : Obligations.HeldSendIsAcceptedInIdle := by
  intro s rest a d q turn oldest
  rw [step_scheduled turn, takeTurn]
  refine ⟨fun idle => ?_, fun busy => ?_⟩
  · rw [retryHeld_of_idle (s := { s with schedule := rest }) oldest idle]
    exact (sendStartsAFrameOrHolds a d { s with schedule := rest, held := q }).1 idle
  · exact retryHeld_of_busy (s := { s with schedule := rest }) oldest busy

/-! ### The draw of RESET -/

theorem drawLine0_of_supplied {s : State} {l : Bool} {ls : List Bool} (h : s.line0In = l :: ls) : drawLine0 s = l := by
  simp [drawLine0, h]

theorem drawLine0_of_none {s : State} (h : s.line0In = []) : drawLine0 s = Config.freeLine0 s.draws := by
  simp [drawLine0, h]

/-- Settles O26: RESET leaves LINE at the draw, which is the first supplied level or, with none, the free value. -/
theorem resetTakesItsDraw : Obligations.ResetTakesItsDraw := by
  refine fun s => ⟨after .reset s, exec_eq_next_after .reset s, ?_⟩
  rw [after_reset_eq]
  refine ⟨rfl, rfl, fun l ls supplied => ?_, fun unsupplied => ?_⟩
  · exact ⟨drawLine0_of_supplied supplied, congrArg List.tail supplied⟩
  · exact ⟨drawLine0_of_none unsupplied, congrArg List.tail unsupplied⟩

end Sys2Proof.Machine
end
